-- ==== Sys2Proof/Word.lean ====
section
/-! DEFINITION. The two transfer widths of the block (20_memory.md R47): the 32-bit header word and the 8-bit stream byte. -/

namespace Sys2Proof

/-- The 32-bit header word, RawHeaderWord (00_scope.md R5). -/
abbrev Word := BitVec 32

/-- A stream byte (30_encoding.md R73). -/
abbrev Byte := BitVec 8

end Sys2Proof
end

