-- ==== Sys2Proof/Config.lean ====
section
/-! DEFINITION. The configuration (00_scope.md R6): names that index the ROMs, the ROMs' shape, the widths,
and the one free value, what the outputs show in a stall cycle. The default contents stand in Machine/Roms.lean. -/

namespace Sys2Proof

/-- The versions (30_encoding.md R63). -/
inductive Version where
  | v1
  | v2
  | v25
  deriving DecidableEq, Repr

/-- The version classes that index BR_ROM (20_memory.md R41). -/
inductive VClass where
  | c1
  | c2
  deriving DecidableEq, Repr

/-- The layers (30_encoding.md R64). -/
inductive Layer where
  | i
  | ii
  | iii
  deriving DecidableEq, Repr

/-- BR_ROM: one row per (class, layer), entries in kbit/s (10_state.md R31). -/
structure BrRom where
  c1i : List Nat
  c1ii : List Nat
  c1iii : List Nat
  c2i : List Nat
  c2ii : List Nat
  c2iii : List Nat
  deriving DecidableEq, Repr

/-- SR_ROM: one row per version, entries in Hz (10_state.md R31). -/
structure SrRom where
  v1 : List Nat
  v2 : List Nat
  v25 : List Nat
  deriving DecidableEq, Repr

/-- The implementation parameters of 00_scope.md R6. -/
structure Config where
  brRom : BrRom
  srRom : SrRom
  shortRows : List (VClass × Layer)
  wCount : Nat
  wBr : Nat
  wSr : Nat
  wSlots : Nat
  wBytes : Nat
  deriving DecidableEq, Repr

/-- What the register output ports carry (10_state.md R24, R27), each as the bits it shows.
COUNT, BR_KBPS, SR_HZ, SLOTS and BYTES have a configured width, so they are numbers here. -/
structure Shown where
  state : BitVec 2
  done : Bool
  status : BitVec 3
  cause : BitVec 3
  raw : Word
  count : Nat
  ver : BitVec 2
  lay : BitVec 2
  prot : BitVec 1
  crcEn : BitVec 1
  bri : BitVec 4
  sri : BitVec 2
  pad : BitVec 1
  priv : BitVec 1
  mode : BitVec 2
  modext : BitVec 2
  copy : BitVec 1
  orig : BitVec 1
  emph : BitVec 2
  brKbps : Nat
  srHz : Nat
  slots : Nat
  bytes : Nat
  deriving DecidableEq, Repr, Inhabited

/-- FREE VALUE (93_implementation_defined.md U17, log 8): what the register outputs show in a stall cycle.
The argument is the number of edges the script still holds, so that no two edges of a run share it. -/
opaque Config.stallShown : Nat → Shown

end Sys2Proof
end

