-- ==== Sys2Proof/Syntax.lean ====
section
/-! DEFINITION. The events of the block: one constructor of Instr per row of opcode_table.json, and the encodings
they are read from (30_encoding.md R60, R73, R74; 10_state.md R23). -/

namespace Sys2Proof

/-- LSTATE, the locator's control state (10_state.md R25). -/
inductive LState where
  | idle
  | scan
  | collect
  | done
  deriving DecidableEq, Repr

/-- The header word's bits 16..0 (30_encoding.md R60): every field below the sync, version and layer codes. -/
structure HeaderFields where
  prot : BitVec 1
  bri : BitVec 4
  sri : BitVec 2
  pad : BitVec 1
  priv : BitVec 1
  mode : BitVec 2
  modext : BitVec 2
  copy : BitVec 1
  orig : BitVec 1
  emph : BitVec 2
  deriving DecidableEq, Repr

/-- The stream port's vector (table format STRM11): `s_err`, `s_valid`, `s_eos` in bits 10, 9, 8 and `s_data` in 7..0. -/
structure StreamVec where
  sErr : Bool
  sValid : Bool
  sEos : Bool
  sData : Byte
  deriving DecidableEq, Repr

/-- What is offered on one of the four inputs, in the table's formats RST1, STRM11, HDR32 and CMD34. -/
inductive PortWord where
  | rst (r : BitVec 1)
  | stream (v : BitVec 11)
  | header (w : Word)
  | command (v : BitVec 34)
  deriving DecidableEq, Repr

/-- What one rising edge of `clk` finds (10_state.md R23, R36): the input ports, and whether the implementation
makes it a stall cycle (70_reset_and_hazards.md R190). -/
structure Edge where
  rst : Bool
  stall : Bool
  cValid : Bool
  cOp : BitVec 2
  cWord : Word
  stream : StreamVec
  deriving DecidableEq, Repr

/-- One constructor per row of opcode_table.json. Bits that a row leaves open, and that its effect ignores, are
operands too, so that an encoding loses no bit. -/
inductive Instr where
  /-- A word without the sync pattern (R102). -/
  | hdrSyncMismatch (w : Word)
  | hdrV1L1 (f : HeaderFields)
  | hdrV1L2 (f : HeaderFields)
  | hdrV1L3 (f : HeaderFields)
  /-- V1, layer code 00 (R104). -/
  | hdrV1LRes (f : HeaderFields)
  | hdrV2L1 (f : HeaderFields)
  | hdrV2L2 (f : HeaderFields)
  | hdrV2L3 (f : HeaderFields)
  /-- V2, layer code 00 (R104). -/
  | hdrV2LRes (f : HeaderFields)
  | hdrV25L1 (f : HeaderFields)
  | hdrV25L2 (f : HeaderFields)
  | hdrV25L3 (f : HeaderFields)
  /-- V2_5, layer code 00 (R104). -/
  | hdrV25LRes (f : HeaderFields)
  /-- Version code 01, any layer code (R103). -/
  | hdrVRes (layerCode : BitVec 2) (f : HeaderFields)
  /-- `c_op` 00; `c_word` ignored (R82). -/
  | nop (w : Word)
  /-- `c_op` 01; `c_word` ignored (R81). -/
  | start (w : Word)
  /-- `c_op` 10 (R126). -/
  | decode (w : Word)
  /-- `c_op` 11 (R83). -/
  | cmdReserved (w : Word)
  /-- `s_err` in SCAN or COLLECT; the rest of the vector is ignored (R90). -/
  | sErr (sValid sEos : Bool) (b : Byte)
  /-- The byte 0xFF in SCAN (R85). -/
  | byteLead (sEos : Bool)
  /-- A byte other than 0xFF in SCAN (R84). -/
  | byteSkip (sEos : Bool) (b : Byte)
  /-- A byte in COLLECT that is not the fourth (R86). -/
  | byteCollect (sEos : Bool) (b : Byte)
  /-- The fourth byte in COLLECT (R87). -/
  | byteFinal (sEos : Bool) (b : Byte)
  /-- `s_eos` in SCAN (R88); `s_data` is not looked at. -/
  | eosScan (b : Byte)
  /-- `s_eos` in COLLECT (R89); `s_data` is not looked at. -/
  | eosCollect (b : Byte)
  /-- Any stream vector in IDLE or DONE (R91). -/
  | streamIgnored (v : StreamVec)
  /-- `rst` (R180). -/
  | reset
  deriving DecidableEq, Repr

end Sys2Proof
end

