-- ==== Sys2Proof/WellFormed.lean ====
section
/-! DEFINITION. The operands an instruction's encoding admits. The operand types carry the widths; two rows of the
table exclude values besides: HDR_SYNC_MISMATCH (a word WITH the sync pattern) and BYTE_SKIP (the byte 0xFF). -/

namespace Sys2Proof

/-- The operand values the row admits (opcode_table.json, "condition" and "match_sense"). -/
def Instr.wf : Instr → Bool
  | .hdrSyncMismatch w => w &&& 0xFFE00000#32 != 0xFFE00000#32
  | .byteSkip _ b => b != 0xFF#8
  | .hdrV1L1 _ | .hdrV1L2 _ | .hdrV1L3 _ | .hdrV1LRes _ => true
  | .hdrV2L1 _ | .hdrV2L2 _ | .hdrV2L3 _ | .hdrV2LRes _ => true
  | .hdrV25L1 _ | .hdrV25L2 _ | .hdrV25L3 _ | .hdrV25LRes _ => true
  | .hdrVRes _ _ | .nop _ | .start _ | .decode _ | .cmdReserved _ => true
  | .sErr _ _ _ | .byteLead _ | .byteCollect _ _ | .byteFinal _ _ => true
  | .eosScan _ | .eosCollect _ | .streamIgnored _ | .reset => true

end Sys2Proof
end

