-- ==== Sys2Proof/Decode.lean ====
section
/-! DEFINITION. Reading an event from what its port carries, and the encoder back.
Bit fields are cut here once (30_encoding.md R60, R61). Which row a stream vector is depends on LSTATE and NCOL
(opcode_table.json, "condition" and "priority"; 10_state.md R36). -/

namespace Sys2Proof

/-! ## Bit fields of the header word (R60, R61) -/

/-- `w[lo+n-1:lo]`, unsigned: the mask-and-shift of R61. -/
def field (w : Word) (lo n : Nat) : BitVec n := w.extractLsb' lo n

def syncField (w : Word) : BitVec 11 := field w 21 11
def versionCode (w : Word) : BitVec 2 := field w 19 2
def layerCode (w : Word) : BitVec 2 := field w 17 2

/-- The fields below the layer code, at the positions of R60. -/
def headerFields (w : Word) : HeaderFields where
  prot := field w 16 1
  bri := field w 12 4
  sri := field w 10 2
  pad := field w 9 1
  priv := field w 8 1
  mode := field w 6 2
  modext := field w 4 2
  copy := field w 3 1
  orig := field w 2 1
  emph := field w 0 2

/-- The header word made of its fields, most significant first (R60). -/
def headerWord (sync : BitVec 11) (ver lay : BitVec 2) (f : HeaderFields) : Word :=
  sync ++ ver ++ lay ++ f.prot ++ f.bri ++ f.sri ++ f.pad ++ f.priv ++ f.mode ++ f.modext ++ f.copy ++ f.orig ++ f.emph

/-- The 11 sync bits, all ones (R62). -/
def syncPattern : BitVec 11 := 0x7FF#11

/-! ## Codes (R63, R64, R74) -/

/-- VMAP (R63); `none` for the reserved code 01. -/
def versionOfCode (c : BitVec 2) : Option Version :=
  if c = 0b11#2 then some .v1 else if c = 0b10#2 then some .v2 else if c = 0b00#2 then some .v25 else none

def Version.code : Version → BitVec 2
  | .v1 => 0b11#2
  | .v2 => 0b10#2
  | .v25 => 0b00#2

/-- LMAP (R64); `none` for the reserved code 00. -/
def layerOfCode (c : BitVec 2) : Option Layer :=
  if c = 0b11#2 then some .i else if c = 0b10#2 then some .ii else if c = 0b01#2 then some .iii else none

def Layer.code : Layer → BitVec 2
  | .i => 0b11#2
  | .ii => 0b10#2
  | .iii => 0b01#2

/-! ## Decoding -/

/-- The row of a version that is not reserved; `none` is the reserved layer code (R72). -/
def headerRow : Version → Option Layer → HeaderFields → Instr
  | .v1, some .i, f => .hdrV1L1 f
  | .v1, some .ii, f => .hdrV1L2 f
  | .v1, some .iii, f => .hdrV1L3 f
  | .v1, none, f => .hdrV1LRes f
  | .v2, some .i, f => .hdrV2L1 f
  | .v2, some .ii, f => .hdrV2L2 f
  | .v2, some .iii, f => .hdrV2L3 f
  | .v2, none, f => .hdrV2LRes f
  | .v25, some .i, f => .hdrV25L1 f
  | .v25, some .ii, f => .hdrV25L2 f
  | .v25, some .iii, f => .hdrV25L3 f
  | .v25, none, f => .hdrV25LRes f

/-- The class of a header word (R72): every word has exactly one. -/
def decodeHeader (w : Word) : Instr :=
  if syncField w = syncPattern then
    match versionOfCode (versionCode w) with
    | none => .hdrVRes (layerCode w) (headerFields w)
    | some v => headerRow v (layerOfCode (layerCode w)) (headerFields w)
  else .hdrSyncMismatch w

/-- The command of `{c_op, c_word}` (R74). -/
def commandOf (op : BitVec 2) (w : Word) : Instr :=
  if op = 0b00#2 then .nop w else if op = 0b01#2 then .start w else if op = 0b10#2 then .decode w else .cmdReserved w

/-- The command that the 34-bit command vector carries: `c_op` in bits 33:32, `c_word` in bits 31:0 (R74). -/
def decodeCommand (v : BitVec 34) : Instr := commandOf (v.extractLsb' 32 2) (v.extractLsb' 0 32)

/-- The stream row that applies in a control state (10_state.md R36 items 4 to 7; the table's priorities);
`none` where SCAN or COLLECT finds no error, byte or end of stream. -/
def decodeStream (l : LState) (ncol : BitVec 2) (v : StreamVec) : Option Instr :=
  match l with
  | .idle | .done => some (.streamIgnored v)
  | .scan =>
    if v.sErr then some (.sErr v.sValid v.sEos v.sData)
    else if v.sValid then if v.sData = 0xFF#8 then some (.byteLead v.sEos) else some (.byteSkip v.sEos v.sData)
    else if v.sEos then some (.eosScan v.sData) else none
  | .collect =>
    if v.sErr then some (.sErr v.sValid v.sEos v.sData)
    else if v.sValid then if ncol = 3#2 then some (.byteFinal v.sEos v.sData) else some (.byteCollect v.sEos v.sData)
    else if v.sEos then some (.eosCollect v.sData) else none

def StreamVec.ofBits (v : BitVec 11) : StreamVec where
  sErr := v.getLsbD 10
  sValid := v.getLsbD 9
  sEos := v.getLsbD 8
  sData := v.extractLsb' 0 8

def StreamVec.bits (v : StreamVec) : BitVec 11 :=
  BitVec.ofBool v.sErr ++ BitVec.ofBool v.sValid ++ BitVec.ofBool v.sEos ++ v.sData

/-- Why a port's bits are no event. -/
inductive DecodeError where
  /-- `rst` is 0. -/
  | resetLow
  /-- In SCAN or COLLECT, with `s_err`, `s_valid` and `s_eos` all 0: the locator waits (R186 d). -/
  | noStreamEvent
  /-- A bit stands above the port's width. -/
  | bitAbovePort
  /-- No port is that wide. -/
  | noSuchPort
  deriving DecidableEq, Repr

/-- The event that a port's bits are in a control state; total, every refusal by name. -/
def decodeAt (l : LState) (ncol : BitVec 2) : PortWord → Except DecodeError Instr
  | .rst r => if r = 1#1 then .ok .reset else .error .resetLow
  | .stream v => match decodeStream l ncol (StreamVec.ofBits v) with
    | some i => .ok i
    | none => .error .noStreamEvent
  | .header w => .ok (decodeHeader w)
  | .command v => .ok (decodeCommand v)

/-- The control states in which a row's own condition on LSTATE and NCOL holds (opcode_table.json, "condition").
R86 enables BYTE_COLLECT for NCOL ≤ 2 (log 12). Header, command and reset rows are read alike in all. -/
def Instr.appliesIn (l : LState) (ncol : BitVec 2) : Instr → Bool
  | .sErr _ _ _ => l = .scan || l = .collect
  | .byteLead _ | .byteSkip _ _ | .eosScan _ => l = .scan
  | .byteCollect _ _ => l = .collect && ncol != 3#2
  | .byteFinal _ _ => l = .collect && ncol = 3#2
  | .eosCollect _ => l = .collect
  | .streamIgnored _ => l = .idle || l = .done
  | .hdrSyncMismatch _ | .hdrVRes _ _ | .reset => true
  | .hdrV1L1 _ | .hdrV1L2 _ | .hdrV1L3 _ | .hdrV1LRes _ => true
  | .hdrV2L1 _ | .hdrV2L2 _ | .hdrV2L3 _ | .hdrV2LRes _ => true
  | .hdrV25L1 _ | .hdrV25L2 _ | .hdrV25L3 _ | .hdrV25LRes _ => true
  | .nop _ | .start _ | .decode _ | .cmdReserved _ => true

/-! ## The encoder -/

/-- A header word of a version that is not reserved, its sync bits set. -/
def headerOf (v : Version) (lay : BitVec 2) (f : HeaderFields) : PortWord :=
  .header (headerWord syncPattern v.code lay f)

/-- A stream vector from its parts. -/
def streamOf (sErr sValid sEos : Bool) (b : Byte) : PortWord :=
  .stream (StreamVec.bits { sErr := sErr, sValid := sValid, sEos := sEos, sData := b })

/-- What a port carries to offer the event: the encodings of R60, R73, R74 and the table's formats. -/
def encode : Instr → PortWord
  | .hdrSyncMismatch w => .header w
  | .hdrV1L1 f => headerOf .v1 0b11#2 f
  | .hdrV1L2 f => headerOf .v1 0b10#2 f
  | .hdrV1L3 f => headerOf .v1 0b01#2 f
  | .hdrV1LRes f => headerOf .v1 0b00#2 f
  | .hdrV2L1 f => headerOf .v2 0b11#2 f
  | .hdrV2L2 f => headerOf .v2 0b10#2 f
  | .hdrV2L3 f => headerOf .v2 0b01#2 f
  | .hdrV2LRes f => headerOf .v2 0b00#2 f
  | .hdrV25L1 f => headerOf .v25 0b11#2 f
  | .hdrV25L2 f => headerOf .v25 0b10#2 f
  | .hdrV25L3 f => headerOf .v25 0b01#2 f
  | .hdrV25LRes f => headerOf .v25 0b00#2 f
  | .hdrVRes lay f => .header (headerWord syncPattern 0b01#2 lay f)
  | .nop w => .command (0b00#2 ++ w)
  | .start w => .command (0b01#2 ++ w)
  | .decode w => .command (0b10#2 ++ w)
  | .cmdReserved w => .command (0b11#2 ++ w)
  | .sErr sValid sEos b => streamOf true sValid sEos b
  | .byteLead sEos => streamOf false true sEos 0xFF#8
  | .byteSkip sEos b => streamOf false true sEos b
  | .byteCollect sEos b => streamOf false true sEos b
  | .byteFinal sEos b => streamOf false true sEos b
  | .eosScan b => streamOf false false true b
  | .eosCollect b => streamOf false false true b
  | .streamIgnored v => .stream v.bits
  | .reset => .rst 1#1

/-! ## The opcode table's rows -/

/-- A row's test on a port's bits as a number: `(v AND mask) = match`, or `≠` for HDR_SYNC_MISMATCH. -/
structure Row where
  mask : Nat
  pattern : Nat
  equal : Bool
  deriving DecidableEq, Repr

def Row.admits (r : Row) (v : Nat) : Bool := (v &&& r.mask == r.pattern) == r.equal

/-- The mask and match of an instruction's row, as opcode_table.json has them. -/
def Instr.row : Instr → Row
  | .hdrSyncMismatch _ => ⟨0xFFE00000, 0xFFE00000, false⟩
  | .hdrV1L1 _ => ⟨0xFFFE0000, 0xFFFE0000, true⟩
  | .hdrV1L2 _ => ⟨0xFFFE0000, 0xFFFC0000, true⟩
  | .hdrV1L3 _ => ⟨0xFFFE0000, 0xFFFA0000, true⟩
  | .hdrV1LRes _ => ⟨0xFFFE0000, 0xFFF80000, true⟩
  | .hdrV2L1 _ => ⟨0xFFFE0000, 0xFFF60000, true⟩
  | .hdrV2L2 _ => ⟨0xFFFE0000, 0xFFF40000, true⟩
  | .hdrV2L3 _ => ⟨0xFFFE0000, 0xFFF20000, true⟩
  | .hdrV2LRes _ => ⟨0xFFFE0000, 0xFFF00000, true⟩
  | .hdrV25L1 _ => ⟨0xFFFE0000, 0xFFE60000, true⟩
  | .hdrV25L2 _ => ⟨0xFFFE0000, 0xFFE40000, true⟩
  | .hdrV25L3 _ => ⟨0xFFFE0000, 0xFFE20000, true⟩
  | .hdrV25LRes _ => ⟨0xFFFE0000, 0xFFE00000, true⟩
  | .hdrVRes _ _ => ⟨0xFFF80000, 0xFFE80000, true⟩
  | .nop _ => ⟨0x300000000, 0x000000000, true⟩
  | .start _ => ⟨0x300000000, 0x100000000, true⟩
  | .decode _ => ⟨0x300000000, 0x200000000, true⟩
  | .cmdReserved _ => ⟨0x300000000, 0x300000000, true⟩
  | .sErr _ _ _ => ⟨0x400, 0x400, true⟩
  | .byteLead _ => ⟨0x6FF, 0x2FF, true⟩
  | .byteSkip _ _ => ⟨0x600, 0x200, true⟩
  | .byteCollect _ _ => ⟨0x600, 0x200, true⟩
  | .byteFinal _ _ => ⟨0x600, 0x200, true⟩
  | .eosScan _ => ⟨0x700, 0x100, true⟩
  | .eosCollect _ => ⟨0x700, 0x100, true⟩
  | .streamIgnored _ => ⟨0x000, 0x000, true⟩
  | .reset => ⟨0x1, 0x1, true⟩

/-- The fourteen header classes of R72, in the table's order. -/
def headerRows : List Row :=
  [⟨0xFFE00000, 0xFFE00000, false⟩,
   ⟨0xFFFE0000, 0xFFFE0000, true⟩, ⟨0xFFFE0000, 0xFFFC0000, true⟩, ⟨0xFFFE0000, 0xFFFA0000, true⟩, ⟨0xFFFE0000, 0xFFF80000, true⟩,
   ⟨0xFFFE0000, 0xFFF60000, true⟩, ⟨0xFFFE0000, 0xFFF40000, true⟩, ⟨0xFFFE0000, 0xFFF20000, true⟩, ⟨0xFFFE0000, 0xFFF00000, true⟩,
   ⟨0xFFFE0000, 0xFFE60000, true⟩, ⟨0xFFFE0000, 0xFFE40000, true⟩, ⟨0xFFFE0000, 0xFFE20000, true⟩, ⟨0xFFFE0000, 0xFFE00000, true⟩,
   ⟨0xFFF80000, 0xFFE80000, true⟩]

/-- A port's bits as the table numbers them. -/
def PortWord.toNat : PortWord → Nat
  | .rst r => r.toNat
  | .stream v => v.toNat
  | .header w => w.toNat
  | .command v => v.toNat

/-! ## The table's words -/

/-- The port whose format has a row of `nbits` bits (whole bytes), and the bits on it (log 9). -/
def portWord (nbits w : Nat) : Except DecodeError PortWord :=
  if nbits = 0 then .error .noSuchPort
  else if nbits ≤ 8 then if w < 2 ^ 1 then .ok (.rst (BitVec.ofNat 1 w)) else .error .bitAbovePort
  else if nbits ≤ 16 then if w < 2 ^ 11 then .ok (.stream (BitVec.ofNat 11 w)) else .error .bitAbovePort
  else if nbits ≤ 32 then if w < 2 ^ 32 then .ok (.header (BitVec.ofNat 32 w)) else .error .bitAbovePort
  else if nbits ≤ 64 then if w < 2 ^ 34 then .ok (.command (BitVec.ofNat 34 w)) else .error .bitAbovePort
  else .error .noSuchPort

/-- The control state in which a table word is read: a stream vector that offers something is read in SCAN, every
other word in IDLE (log 9: the table gives BYTE_SKIP, BYTE_COLLECT and BYTE_FINAL one word, and EOS_SCAN and
EOS_COLLECT one, which only LSTATE and NCOL tell apart). -/
def tableControl : PortWord → LState
  | .stream v => if v.extractLsb' 8 3 = 0#3 then .idle else .scan
  | .rst _ | .header _ | .command _ => .idle

/-- The event of a table word. -/
def decodeTable (nbits w : Nat) : Except DecodeError Instr :=
  match portWord nbits w with
  | .ok p => decodeAt (tableControl p) 0#2 p
  | .error e => .error e

/-- The instruction this decoder reads from a word of opcode_table.json. -/
def decodeTableWord (nbits w : Nat) : Option Instr :=
  match decodeTable nbits w with
  | .ok i => some i
  | .error _ => none

end Sys2Proof
end

