-- ==== Sys2Proof/Machine/Roms.lean ====
section
/-! DEFINITION. The two lookup ROMs: rows, row lengths, reads (20_memory.md R41 to R43) and default contents
(41_decoder.md R121, R122; log 13). -/

namespace Sys2Proof

/-- CLASS (R106): V2 and V2_5 share one set of bitrate rows. -/
def Version.vclass : Version → VClass
  | .v1 => .c1
  | .v2 => .c2
  | .v25 => .c2

/-- Row (c, l) of BR_ROM (R41). -/
def BrRom.row (r : BrRom) : VClass → Layer → List Nat
  | .c1, .i => r.c1i
  | .c1, .ii => r.c1ii
  | .c1, .iii => r.c1iii
  | .c2, .i => r.c2i
  | .c2, .ii => r.c2ii
  | .c2, .iii => r.c2iii

/-- Row v of SR_ROM (R42). -/
def SrRom.row (r : SrRom) : Version → List Nat
  | .v1 => r.v1
  | .v2 => r.v2
  | .v25 => r.v25

/-- ROWLEN (R41, R107). -/
def Config.rowLen (c : Config) (k : VClass) (l : Layer) : Nat :=
  if (k, l) ∈ c.shortRows then 14 else 15

/-- `MemRead(BR_ROM, {k, l, i})`; `none` where the row has no entry `i` (R41: not defined there). -/
def Config.readBr (c : Config) (k : VClass) (l : Layer) (i : Nat) : Option Nat := (c.brRom.row k l)[i]?

/-- `MemRead(SR_ROM, {v, i})`; `none` where the row has no entry `i` (R42: not defined there). -/
def Config.readSr (c : Config) (v : Version) (i : Nat) : Option Nat := (c.srRom.row v)[i]?

/-- BR_ROM's default contents, in kbit/s (R121). -/
def BrRom.default : BrRom where
  c1i := [0, 32, 64, 96, 128, 160, 192, 224, 256, 288, 320, 352, 384, 416, 448]
  c1ii := [0, 32, 48, 56, 64, 80, 96, 112, 128, 160, 192, 224, 256, 320, 384]
  c1iii := [0, 32, 40, 48, 56, 64, 80, 96, 112, 128, 160, 192, 224, 256, 320]
  c2i := [0, 32, 48, 56, 64, 80, 96, 112, 128, 144, 160, 176, 192, 224, 256]
  c2ii := [0, 8, 16, 24, 32, 40, 48, 56, 64, 80, 96, 112, 128, 144]
  c2iii := [0, 8, 16, 24, 32, 40, 48, 56, 64, 80, 96, 112, 128, 144]

/-- SR_ROM's default contents, in Hz (R122). -/
def SrRom.default : SrRom where
  v1 := [44100, 48000, 32000]
  v2 := [22050, 24000, 16000]
  v25 := [11025, 12000, 8000]

/-- The default parameters (00_scope.md R6). -/
def Config.default : Config where
  brRom := BrRom.default
  srRom := SrRom.default
  shortRows := [(.c2, .ii), (.c2, .iii)]
  wCount := 32
  wBr := 9
  wSr := 16
  wSlots := 16
  wBytes := 16

end Sys2Proof
end

