-- ==== Sys2Proof/Machine/State.lean ====
section
/-! DEFINITION. The state (10_state.md R25 to R29, R31, R37), its reset value (R35), and the reasons a step can stop. -/

namespace Sys2Proof.Machine

/-- STATUS (R28, 60_exceptions.md R160): the five values that are ever written. -/
inductive Status where
  | none
  | ok
  | syncNotFound
  | invalidHeader
  | streamUnavailable
  deriving DecidableEq, Repr

/-- CAUSE (R29, 60_exceptions.md R161, R162). -/
inductive Cause where
  | none
  | sync
  | version
  | layer
  | sampleRate
  | bitrate
  | noLead
  | truncated
  deriving DecidableEq, Repr

/-- The result registers (R27). The last four have a configured width, so they are numbers (log 16). -/
structure Results where
  ver : BitVec 2
  lay : BitVec 2
  prot : BitVec 1
  crcEn : BitVec 1
  bri : BitVec 4
  sri : BitVec 2
  pad : BitVec 1
  priv : BitVec 1
  mode : BitVec 2
  modext : BitVec 2
  copy : BitVec 1
  orig : BitVec 1
  emph : BitVec 2
  brKbps : Nat
  srHz : Nat
  slots : Nat
  bytes : Nat
  deriving DecidableEq, Repr

/-- Every result register 0 (60_exceptions.md R165, "zero"). -/
def Results.zero : Results where
  ver := 0#2
  lay := 0#2
  prot := 0#1
  crcEn := 0#1
  bri := 0#4
  sri := 0#2
  pad := 0#1
  priv := 0#1
  mode := 0#2
  modext := 0#2
  copy := 0#1
  orig := 0#1
  emph := 0#2
  brKbps := 0
  srHz := 0
  slots := 0
  bytes := 0

/-- What the source owes for one of the levels `s_eos`, `s_err` (70_reset_and_hazards.md R186 b, c; log 6): asserted since
the last START, so that no byte may be newly offered; still to be kept high; high at the last edge. -/
structure LevelDuty where
  seen : Bool
  keep : Bool
  high : Bool
  deriving DecidableEq, Repr

/-- The level has not been asserted since the last START. -/
def LevelDuty.none : LevelDuty where
  seen := false
  keep := false
  high := false

/-- The source's standing duties (70_reset_and_hazards.md R186): the byte it offers that is not yet taken, and what it
owes for its two levels. The model's own, no register (log 6). -/
structure Duties where
  held : Option Byte
  eos : LevelDuty
  err : LevelDuty
  deriving DecidableEq, Repr

/-- No duty outstanding. -/
def Duties.none : Duties where
  held := Option.none
  eos := LevelDuty.none
  err := LevelDuty.none

/-- The registers of R25 to R29, the constant configuration with the ROMs (R31), and what the environment will
drive: `inputs`, one entry per coming rising edge, and `src` (log 1). -/
structure State where
  cfg : Config
  lstate : LState
  ncol : BitVec 2
  raw : Word
  count : Nat
  status : Status
  cause : Cause
  res : Results
  src : Duties
  inputs : List Edge
  deriving DecidableEq, Repr

/-- Why the machine stops. The block's own failures are completions, not stops (60_exceptions.md R165). -/
inductive Fault where
  /-- A ROM read outside its row (20_memory.md R41, R42: not defined). Raised by the commit; SAFE.
  No well-formed configuration reaches it. -/
  | romReadOutside
  deriving DecidableEq, Repr

/-- Why a step, or a program line, has no meaning. Every one is SAFE. -/
inductive Refusal where
  /-- An instruction the model gives no meaning. Raised by no arm of exec in this model. -/
  | notModelled (mnemonic : String)
  /-- The configuration breaks 00_scope.md R6 ("A model refuses an ill-formed configuration"). Raised by step. -/
  | illFormedConfig
  /-- `s_data` changed while its byte was offered (70_reset_and_hazards.md R186 a). Raised by step. -/
  | unstableStreamData
  /-- A byte newly offered after `s_eos`, or `s_eos` dropped before the locate completes or a START arrives (R186 b).
  Raised by step. -/
  | eosDutyBroken
  /-- The same for `s_err` (R186 c). Raised by step. -/
  | errDutyBroken
  /-- A program line whose event the state does not accept, or the reserved command (30_encoding.md R77;
  40_locator.md R83). Raised by runProgram only. -/
  | illFormedProgram
  deriving DecidableEq, Repr

/-- Right after reset (R35), with the default configuration and nothing driven yet. -/
def State.reset : State where
  cfg := Config.default
  lstate := .idle
  ncol := 0#2
  raw := 0x00000000#32
  count := 0
  status := .none
  cause := .none
  res := Results.zero
  src := Duties.none
  inputs := []

end Sys2Proof.Machine
end

