-- ==== Sys2Proof/Machine/Operands.lean ====
section
/-! DEFINITION. The operand values a header word stands for: the enumerations of 30_encoding.md R65 to R71 and the
record FrameHeader (41_decoder.md R100). -/

namespace Sys2Proof.Machine

/-- `channelMode` (30_encoding.md R68). -/
inductive ChannelMode where
  | stereo
  | jointStereo
  | dualChannel
  | singleChannel
  deriving DecidableEq, Repr

/-- `emphasis` (30_encoding.md R70). -/
inductive Emphasis where
  | none
  | ms50x15
  | reserved
  | ccitJ17
  deriving DecidableEq, Repr

/-- CMAP (R68, log 14). -/
def channelModeOf (c : BitVec 2) : ChannelMode :=
  if c = 0b00#2 then .stereo else if c = 0b01#2 then .jointStereo else if c = 0b10#2 then .dualChannel else .singleChannel

/-- EMAP (R70, log 14); code 10 is a value, not a failure. -/
def emphasisOf (c : BitVec 2) : Emphasis :=
  if c = 0b00#2 then .none else if c = 0b01#2 then .ms50x15 else if c = 0b10#2 then .reserved else .ccitJ17

/-- The decoded record (R100). -/
structure FrameHeader where
  mpegVersion : Version
  layer : Layer
  protectionBit : BitVec 1
  protectionEnabled : Bool
  bitrateIndex : BitVec 4
  bitrateKbps : Nat
  sampleRateIndex : BitVec 2
  sampleRateHz : Nat
  padding : Bool
  privateBit : Bool
  channelMode : ChannelMode
  modeExtension : BitVec 2
  copyrighted : Bool
  original : Bool
  emphasis : Emphasis
  deriving DecidableEq, Repr

/-- The record of a word whose checks passed: the ROM values looked up and the fields copied (R101, R110, R65, R71). -/
def frameHeader (v : Version) (l : Layer) (f : HeaderFields) (br sr : Nat) : FrameHeader where
  mpegVersion := v
  layer := l
  protectionBit := f.prot
  protectionEnabled := f.prot = 0#1
  bitrateIndex := f.bri
  bitrateKbps := br
  sampleRateIndex := f.sri
  sampleRateHz := sr
  padding := f.pad = 1#1
  privateBit := f.priv = 1#1
  channelMode := channelModeOf f.mode
  modeExtension := f.modext
  copyrighted := f.copy = 1#1
  original := f.orig = 1#1
  emphasis := emphasisOf f.emph

/-- The next word of the assembly register: `((RAW << 8) OR zext_32(b)) mod 2^32` (40_locator.md R86, R87). -/
def shiftIn (raw : Word) (b : Byte) : Word := (raw <<< 8) ||| b.setWidth 32

/-- RAW after the bytes of a candidate header taken so far, first byte first (20_memory.md R45). -/
def assemble (bs : List Byte) : Word := bs.foldl shiftIn 0#32

end Sys2Proof.Machine
end

