-- ==== Sys2Proof/Machine/FrameSize.lean ====
section
/-! DEFINITION. The frame-size arithmetic unit (42_framesize.md), exact over Nat (R143). -/

namespace Sys2Proof.Machine

/-- `samplesPerFrameFactor` (R140): the same for every version. -/
def samplesPerFrameFactor : Layer → Nat
  | .i => 12
  | .ii => 36
  | .iii => 36

/-- The formula of R141 on its operands: the whole product first, one floor division, padding after it. -/
def slotsOf (l : Layer) (kbps hz : Nat) (padding : Bool) : Nat :=
  samplesPerFrameFactor l * kbps * 1000 / hz + if padding then 1 else 0

/-- `frameLengthSlots` (R141). -/
def frameLengthSlots (h : FrameHeader) : Nat := slotsOf h.layer h.bitrateKbps h.sampleRateHz h.padding

/-- `frameSizeBytes` (R142): four bytes a slot, for every layer. -/
def frameSizeBytes (h : FrameHeader) : Nat := 4 * frameLengthSlots h

end Sys2Proof.Machine
end

