-- ==== Sys2Proof/Machine/Configuration.lean ====
section
/-! DEFINITION. When a configuration is well-formed (00_scope.md R6, 10_state.md R31). -/

namespace Sys2Proof.Machine

def allVersions : List Version := [.v1, .v2, .v25]
def allClasses : List VClass := [.c1, .c2]
def allLayers : List Layer := [.i, .ii, .iii]

/-- A BR_ROM row: ROWLEN entries (R31, R41), each below 2^W_BR, index 0 holding 0 (R6). -/
def brRowWf (c : Config) (k : VClass) (l : Layer) : Bool :=
  let r := c.brRom.row k l
  r.length == c.rowLen k l && r.all (· < 2 ^ c.wBr) && r[0]? == some 0

/-- An SR_ROM row: three entries (R31, R42), each nonzero and below 2^W_SR (R6). -/
def srRowWf (c : Config) (v : Version) : Bool :=
  let r := c.srRom.row v
  r.length == 3 && r.all fun hz => hz != 0 && hz < 2 ^ c.wSr

/-- Every valid header of a version and layer fits SLOTS and BYTES (R6). Padding only adds, so the padded one decides. -/
def sizesFit (c : Config) (v : Version) (l : Layer) : Bool :=
  (c.srRom.row v).all fun hz => (c.brRom.row v.vclass l).all fun kbps =>
    slotsOf l kbps hz true < 2 ^ c.wSlots && 4 * slotsOf l kbps hz true < 2 ^ c.wBytes

/-- The conditions of R6, with the row lengths of R31. -/
def configWf (c : Config) : Bool :=
  (allClasses.all fun k => allLayers.all fun l => brRowWf c k l)
    && (allVersions.all fun v => srRowWf c v)
    && c.brRom.c1iii[9]? == some 128
    && c.srRom.v1[0]? == some 44100
    && allVersions.all fun v => allLayers.all fun l => sizesFit c v l

end Sys2Proof.Machine
end

