-- ==== Sys2Proof/Machine/HeaderDecoder.lean ====
section
/-! DEFINITION. The bit-field decoder (41_decoder.md R101 to R116): a pure function of the word and the configuration (R113). -/

namespace Sys2Proof.Machine

/-- What `decode` answers (R100). `outsideRom` stands for a ROM read that R41 and R42 leave undefined; no
well-formed configuration reaches it (log 11). -/
inductive Decoded where
  | header (h : FrameHeader)
  | invalid (c : Cause)
  | outsideRom
  deriving DecidableEq, Repr

/-- The checks and lookups that follow a valid version and layer (R101): the sample-rate check and lookup (R105),
then the bitrate range check and lookup (R108), in that order (R114). -/
def decodeRest (c : Config) (v : Version) (l : Layer) (f : HeaderFields) : Decoded :=
  if f.sri = 0b11#2 then .invalid .sampleRate
  else match c.readSr v f.sri.toNat with
    | none => .outsideRom
    | some hz =>
      if c.rowLen v.vclass l ≤ f.bri.toNat then .invalid .bitrate
      else match c.readBr v.vclass l f.bri.toNat with
        | none => .outsideRom
        | some kbps => .header (frameHeader v l f kbps hz)

/-- `decode` in full (R101): the first check that fails gives the cause. -/
def decode (c : Config) (w : Word) : Decoded :=
  if syncField w = syncPattern then
    match versionOfCode (versionCode w) with
    | none => .invalid .version
    | some v =>
      match layerOfCode (layerCode w) with
      | none => .invalid .layer
      | some l => decodeRest c v l (headerFields w)
  else .invalid .sync

/-- `results(w, h)` (R125). -/
def results (w : Word) (h : FrameHeader) : Results where
  ver := field w 19 2
  lay := field w 17 2
  prot := field w 16 1
  crcEn := ~~~(field w 16 1)
  bri := field w 12 4
  sri := field w 10 2
  pad := field w 9 1
  priv := field w 8 1
  mode := field w 6 2
  modext := field w 4 2
  copy := field w 3 1
  orig := field w 2 1
  emph := field w 0 2
  brKbps := h.bitrateKbps
  srHz := h.sampleRateHz
  slots := frameLengthSlots h
  bytes := frameSizeBytes h

end Sys2Proof.Machine
end

