-- ==== Sys2Proof/Machine/Ops.lean ====
section
/-! DEFINITION. The operations the events share: taking a stream byte, arming a locate, the completion action (the
block's "trap entry", 60_exceptions.md R165), the commit of a word (41_decoder.md R125), and what an event that is not
accepted does. -/

namespace Sys2Proof.Machine

/-- `take(b); COUNT++` (20_memory.md R44, 40_locator.md R93). The byte leaves the stream: no later edge offers it. -/
def State.take (s : State) : State := { s with count := (s.count + 1) % 2 ^ s.cfg.wCount }

/-- The completion action `complete(status, cause, res)` (R165): RAW and COUNT are not written. -/
def State.complete (s : State) (st : Status) (c : Cause) (r : Results) : State :=
  { s with lstate := .done, ncol := 0#2, status := st, cause := c, res := r }

/-- `RAW <- w`. -/
def State.setRaw (s : State) (w : Word) : State := { s with raw := w }

/-- Arming a locate: what START writes (40_locator.md R81), the way out of DONE that begins a locate (R166). -/
def State.arm (s : State) : State :=
  { s with lstate := .scan, ncol := 0#2, raw := 0x00000000#32, count := 0, status := .none, cause := .none,
           res := Results.zero }

/-- The collecting of a header byte that does not complete it: LSTATE, NCOL and RAW (40_locator.md R85, R86). -/
def State.collect (s : State) (n : BitVec 2) (w : Word) : State := { s with lstate := .collect, ncol := n, raw := w }

/-- The reset step (70_reset_and_hazards.md R180, 10_state.md R35): every register; not the ROMs, not the environment. -/
def State.resetRegisters (s : State) : State := { State.reset with cfg := s.cfg, src := s.src, inputs := s.inputs }

/-- The commit of a word whose decode answered `d` (R125). -/
def commitDecoded (w : Word) (d : Decoded) (s : State) : Host.Outcome State Fault Refusal :=
  match d with
  | .header h => .next ((s.setRaw w).complete .ok .none (results w h))
  | .invalid c => .next ((s.setRaw w).complete .invalidHeader c Results.zero)
  | .outsideRom => .fault .romReadOutside

/-- `commit(w)` (R125). -/
def commit (w : Word) (s : State) : Host.Outcome State Fault Refusal := commitDecoded w (decode s.cfg w) s

/-- The commit of a header word of a known class (30_encoding.md R72): the sync, version and layer checks are settled by
the class, the rest is decided by `decodeRest`. -/
def commitClass (v : Version) (l : Layer) (f : HeaderFields) (s : State) : Host.Outcome State Fault Refusal :=
  commitDecoded (headerWord syncPattern v.code l.code f) (decodeRest s.cfg v l f) s

/-- The commit of a header word that its class already fails. -/
def commitInvalid (w : Word) (c : Cause) (s : State) : Host.Outcome State Fault Refusal :=
  commitDecoded w (.invalid c) s

/-- An event with its enabling condition: accepted, it has its effect; not accepted, no register changes
(00_scope.md R10; log 4). -/
def whenAccepted (accepted : Bool) (s : State) (effect : State → Host.Outcome State Fault Refusal) :
    Host.Outcome State Fault Refusal :=
  if accepted then effect s else .next s

end Sys2Proof.Machine
end

