-- ==== Sys2Proof/Machine/Flags.lean ====
section
/-! DEFINITION. The status codes and the derived outputs (10_state.md R24, R25, R28 to R30, R33). -/

namespace Sys2Proof.Machine

/-- LSTATE's code (R25), shown on `state`. -/
def lstateCode : LState → BitVec 2
  | .idle => 0b00#2
  | .scan => 0b01#2
  | .collect => 0b10#2
  | .done => 0b11#2

/-- STATUS's code (60_exceptions.md R160). -/
def Status.code : Status → BitVec 3
  | .none => 0#3
  | .ok => 1#3
  | .syncNotFound => 2#3
  | .invalidHeader => 3#3
  | .streamUnavailable => 4#3

/-- CAUSE's code (60_exceptions.md R161, R162). -/
def Cause.code : Cause → BitVec 3
  | .none => 0#3
  | .sync => 1#3
  | .version => 2#3
  | .layer => 3#3
  | .sampleRate => 4#3
  | .bitrate => 5#3
  | .noLead => 6#3
  | .truncated => 7#3

/-- A locate is in progress: LSTATE is SCAN or COLLECT. -/
def locating (l : LState) : Bool := l = .scan || l = .collect

/-- `done` (R30). -/
def doneOut (s : State) : Bool := s.lstate = .done

/-- `c_ready` outside stall cycles (R30): a DECODE is held while a locate is in progress. -/
def cReady (s : State) (e : Edge) : Bool := !(e.cOp = 0b10#2 && locating s.lstate)

/-- `s_ready` outside stall cycles (R30). -/
def sReady (s : State) (e : Edge) : Bool :=
  locating s.lstate && !(e.cValid && cReady s e) && !e.stream.sErr

/-- The output ports (R24). -/
structure Outputs where
  cReady : Bool
  sReady : Bool
  shown : Shown
  deriving DecidableEq, Repr

/-- The register outputs: each shows the register of its name (R24). -/
def shown (s : State) : Shown where
  state := lstateCode s.lstate
  done := doneOut s
  status := s.status.code
  cause := s.cause.code
  raw := s.raw
  count := s.count
  ver := s.res.ver
  lay := s.res.lay
  prot := s.res.prot
  crcEn := s.res.crcEn
  bri := s.res.bri
  sri := s.res.sri
  pad := s.res.pad
  priv := s.res.priv
  mode := s.res.mode
  modext := s.res.modext
  copy := s.res.copy
  orig := s.res.orig
  emph := s.res.emph
  brKbps := s.res.brKbps
  srHz := s.res.srHz
  slots := s.res.slots
  bytes := s.res.bytes

/-- The edge is a stall cycle: reset precedes it (R36), and no stall is in a cycle with `rst` 1. -/
def stalled (e : Edge) : Bool := !e.rst && e.stall

/-- The outputs at an edge (R24, R30). In a stall cycle both ready outputs are 0 and the rest is a free value
(70_reset_and_hazards.md R185, R190; 93_implementation_defined.md U17; log 8). While `rst` is 1 the register outputs show
the registers, so the reset values from the first edge on (R180; log 15 for the ready outputs there). -/
def outputs (s : State) (e : Edge) : Outputs :=
  if stalled e then { cReady := false, sReady := false, shown := Config.stallShown s.inputs.length }
  else { cReady := cReady s e, sReady := sReady s e, shown := shown s }

end Sys2Proof.Machine
end

