-- ==== Sys2Proof/Machine/Commands.lean ====
section
/-! DEFINITION. The meanings of the commands (30_encoding.md R74) and of reset (70_reset_and_hazards.md R180). -/

namespace Sys2Proof.Machine

/-- NOP (40_locator.md R82): no register changes. -/
def execNop (_ : Word) (s : State) : Host.Outcome State Fault Refusal := .next s

/-- START (40_locator.md R81), in every LSTATE. -/
def execStart (_ : Word) (s : State) : Host.Outcome State Fault Refusal := .next s.arm

/-- DECODE (41_decoder.md R126): accepted in IDLE and DONE; in SCAN and COLLECT it is held and changes nothing
(70_reset_and_hazards.md R184). -/
def execDecode (w : Word) (s : State) : Host.Outcome State Fault Refusal :=
  whenAccepted (!locating s.lstate) s (commit w)

/-- The reserved code (40_locator.md R83): the block changes no register. A PROGRAM that issues it is refused
(Machine/Program.lean, log 5). -/
def execCmdReserved (_ : Word) (s : State) : Host.Outcome State Fault Refusal := .next s

/-- RESET (R180). -/
def execReset (s : State) : Host.Outcome State Fault Refusal := .next s.resetRegisters

end Sys2Proof.Machine
end

