-- ==== Sys2Proof/Machine/Header.lean ====
section
/-! DEFINITION. The meanings of the fourteen header classes (30_encoding.md R72): each commits its word
(41_decoder.md R125) with what its class leaves to check. They run as DECODE's or BYTE_FINAL's word (log 10). -/

namespace Sys2Proof.Machine

/-- HDR_SYNC_MISMATCH: cause SYNC (41_decoder.md R102). -/
def execHdrSyncMismatch (w : Word) (s : State) : Host.Outcome State Fault Refusal := commitInvalid w .sync s

def execHdrV1L1 (f : HeaderFields) (s : State) : Host.Outcome State Fault Refusal := commitClass .v1 .i f s
def execHdrV1L2 (f : HeaderFields) (s : State) : Host.Outcome State Fault Refusal := commitClass .v1 .ii f s
def execHdrV1L3 (f : HeaderFields) (s : State) : Host.Outcome State Fault Refusal := commitClass .v1 .iii f s
def execHdrV2L1 (f : HeaderFields) (s : State) : Host.Outcome State Fault Refusal := commitClass .v2 .i f s
def execHdrV2L2 (f : HeaderFields) (s : State) : Host.Outcome State Fault Refusal := commitClass .v2 .ii f s
def execHdrV2L3 (f : HeaderFields) (s : State) : Host.Outcome State Fault Refusal := commitClass .v2 .iii f s
def execHdrV25L1 (f : HeaderFields) (s : State) : Host.Outcome State Fault Refusal := commitClass .v25 .i f s
def execHdrV25L2 (f : HeaderFields) (s : State) : Host.Outcome State Fault Refusal := commitClass .v25 .ii f s
def execHdrV25L3 (f : HeaderFields) (s : State) : Host.Outcome State Fault Refusal := commitClass .v25 .iii f s

/-- HDR_V1_LRES: cause LAYER (41_decoder.md R104). -/
def execHdrV1LRes (f : HeaderFields) (s : State) : Host.Outcome State Fault Refusal :=
  commitInvalid (headerWord syncPattern Version.v1.code 0b00#2 f) .layer s

/-- HDR_V2_LRES: cause LAYER (R104). -/
def execHdrV2LRes (f : HeaderFields) (s : State) : Host.Outcome State Fault Refusal :=
  commitInvalid (headerWord syncPattern Version.v2.code 0b00#2 f) .layer s

/-- HDR_V2_5_LRES: cause LAYER (R104). -/
def execHdrV25LRes (f : HeaderFields) (s : State) : Host.Outcome State Fault Refusal :=
  commitInvalid (headerWord syncPattern Version.v25.code 0b00#2 f) .layer s

/-- HDR_VRES: cause VERSION, whatever the layer code (41_decoder.md R103). -/
def execHdrVRes (lay : BitVec 2) (f : HeaderFields) (s : State) : Host.Outcome State Fault Refusal :=
  commitInvalid (headerWord syncPattern 0b01#2 lay f) .version s

end Sys2Proof.Machine
end

