-- ==== Sys2Proof/Machine/Stream.lean ====
section
/-! DEFINITION. The meanings of the stream events (40_locator.md R84 to R91). Each has its row's condition;
in another control state the event is not accepted (log 4). -/

namespace Sys2Proof.Machine

/-- BYTE_SKIP (R84): a byte other than 0xFF in SCAN. -/
def execByteSkip (_ : Bool) (b : Byte) (s : State) : Host.Outcome State Fault Refusal :=
  whenAccepted (s.lstate = .scan && b != 0xFF#8) s fun s => .next s.take

/-- BYTE_LEAD (R85): the byte 0xFF in SCAN. -/
def execByteLead (_ : Bool) (s : State) : Host.Outcome State Fault Refusal :=
  whenAccepted (s.lstate = .scan) s fun s => .next (s.take.collect 1#2 0x000000FF#32)

/-- BYTE_COLLECT (R86): the second or third header byte. -/
def execByteCollect (_ : Bool) (b : Byte) (s : State) : Host.Outcome State Fault Refusal :=
  whenAccepted (s.lstate = .collect && s.ncol != 3#2) s fun s => .next (s.take.collect (s.ncol + 1#2) (shiftIn s.raw b))

/-- BYTE_FINAL (R87): the fourth header byte, and the commit of the assembled word. -/
def execByteFinal (_ : Bool) (b : Byte) (s : State) : Host.Outcome State Fault Refusal :=
  whenAccepted (s.lstate = .collect && s.ncol = 3#2) s fun s => commit (shiftIn s.raw b) s.take

/-- EOS_SCAN (R88): no lead byte. -/
def execEosScan (_ : Byte) (s : State) : Host.Outcome State Fault Refusal :=
  whenAccepted (s.lstate = .scan) s fun s => .next (s.complete .syncNotFound .noLead Results.zero)

/-- EOS_COLLECT (R89): a truncated header; RAW keeps its bytes. -/
def execEosCollect (_ : Byte) (s : State) : Host.Outcome State Fault Refusal :=
  whenAccepted (s.lstate = .collect) s fun s => .next (s.complete .syncNotFound .truncated Results.zero)

/-- S_ERR (R90): the source cannot be read. -/
def execSErr (_ _ : Bool) (_ : Byte) (s : State) : Host.Outcome State Fault Refusal :=
  whenAccepted (locating s.lstate) s fun s => .next (s.complete .streamUnavailable .none Results.zero)

/-- STREAM_IGNORED (R91): in IDLE and DONE the stream port is not sampled; no register changes. -/
def execStreamIgnored (_ : StreamVec) (s : State) : Host.Outcome State Fault Refusal := .next s

end Sys2Proof.Machine
end

