-- ==== Sys2Proof/Machine/Dispatch.lean ====
section
/-! DEFINITION. One arm per constructor of Instr. -/

namespace Sys2Proof.Machine

def exec (i : Instr) (s : State) : Host.Outcome State Fault Refusal :=
  match i with
  | .hdrSyncMismatch w => Sys2Proof.Machine.execHdrSyncMismatch w s
  | .hdrV1L1 f => Sys2Proof.Machine.execHdrV1L1 f s
  | .hdrV1L2 f => Sys2Proof.Machine.execHdrV1L2 f s
  | .hdrV1L3 f => Sys2Proof.Machine.execHdrV1L3 f s
  | .hdrV1LRes f => Sys2Proof.Machine.execHdrV1LRes f s
  | .hdrV2L1 f => Sys2Proof.Machine.execHdrV2L1 f s
  | .hdrV2L2 f => Sys2Proof.Machine.execHdrV2L2 f s
  | .hdrV2L3 f => Sys2Proof.Machine.execHdrV2L3 f s
  | .hdrV2LRes f => Sys2Proof.Machine.execHdrV2LRes f s
  | .hdrV25L1 f => Sys2Proof.Machine.execHdrV25L1 f s
  | .hdrV25L2 f => Sys2Proof.Machine.execHdrV25L2 f s
  | .hdrV25L3 f => Sys2Proof.Machine.execHdrV25L3 f s
  | .hdrV25LRes f => Sys2Proof.Machine.execHdrV25LRes f s
  | .hdrVRes lay f => Sys2Proof.Machine.execHdrVRes lay f s
  | .nop w => Sys2Proof.Machine.execNop w s
  | .start w => Sys2Proof.Machine.execStart w s
  | .decode w => Sys2Proof.Machine.execDecode w s
  | .cmdReserved w => Sys2Proof.Machine.execCmdReserved w s
  | .sErr v e b => Sys2Proof.Machine.execSErr v e b s
  | .byteLead e => Sys2Proof.Machine.execByteLead e s
  | .byteSkip e b => Sys2Proof.Machine.execByteSkip e b s
  | .byteCollect e b => Sys2Proof.Machine.execByteCollect e b s
  | .byteFinal e b => Sys2Proof.Machine.execByteFinal e b s
  | .eosScan b => Sys2Proof.Machine.execEosScan b s
  | .eosCollect b => Sys2Proof.Machine.execEosCollect b s
  | .streamIgnored v => Sys2Proof.Machine.execStreamIgnored v s
  | .reset => Sys2Proof.Machine.execReset s

end Sys2Proof.Machine
end

