-- ==== Sys2Proof/Machine/Select.lean ====
section
/-! DEFINITION. What one rising edge of `clk` does before an event takes effect: which event it accepts
(10_state.md R36), the source's duties (70_reset_and_hazards.md R186), and placing a table word where the next edge finds it. -/

namespace Sys2Proof.Machine

/-- An edge at which every input port is 0. -/
def quiet : Edge where
  rst := false
  stall := false
  cValid := false
  cOp := 0#2
  cWord := 0#32
  stream := { sErr := false, sValid := false, sEos := false, sData := 0#8 }

/-- The event that an edge accepts (R36), in the order of precedence; `none` where it accepts none. -/
def select (s : State) (e : Edge) : Option Instr :=
  if e.rst then some .reset
  else if e.stall then none
  else if e.cValid && cReady s e then some (commandOf e.cOp e.cWord)
  else decodeStream s.lstate s.ncol e.stream

/-- The event takes the byte that the edge offers (40_locator.md R84 to R87). -/
def eventTakes : Instr → Bool
  | .byteLead _ | .byteSkip _ _ | .byteCollect _ _ | .byteFinal _ _ => true
  | .hdrSyncMismatch _ | .hdrVRes _ _ | .sErr _ _ _ | .eosScan _ | .eosCollect _ | .streamIgnored _ | .reset => false
  | .hdrV1L1 _ | .hdrV1L2 _ | .hdrV1L3 _ | .hdrV1LRes _ => false
  | .hdrV2L1 _ | .hdrV2L2 _ | .hdrV2L3 _ | .hdrV2LRes _ => false
  | .hdrV25L1 _ | .hdrV25L2 _ | .hdrV25L3 _ | .hdrV25LRes _ => false
  | .nop _ | .start _ | .decode _ | .cmdReserved _ => false

/-- The event is a START, which ends the duties of R186 (b) and (c) ("before the next START"). A reset does not. -/
def eventStarts : Instr → Bool
  | .start _ => true
  | .hdrSyncMismatch _ | .hdrVRes _ _ | .nop _ | .decode _ | .cmdReserved _ | .reset => false
  | .hdrV1L1 _ | .hdrV1L2 _ | .hdrV1L3 _ | .hdrV1LRes _ => false
  | .hdrV2L1 _ | .hdrV2L2 _ | .hdrV2L3 _ | .hdrV2LRes _ => false
  | .hdrV25L1 _ | .hdrV25L2 _ | .hdrV25L3 _ | .hdrV25LRes _ => false
  | .sErr _ _ _ | .byteLead _ | .byteSkip _ _ | .byteCollect _ _ | .byteFinal _ _ => false
  | .eosScan _ | .eosCollect _ | .streamIgnored _ => false

/-- The event completes the locate (40_locator.md R80), which ends the duty to keep a level high (R186 b, c). A DECODE
completes no locate. -/
def eventCompletesLocate : Instr → Bool
  | .byteFinal _ _ | .eosScan _ | .eosCollect _ | .sErr _ _ _ => true
  | .hdrSyncMismatch _ | .hdrVRes _ _ | .nop _ | .start _ | .decode _ | .cmdReserved _ | .reset => false
  | .hdrV1L1 _ | .hdrV1L2 _ | .hdrV1L3 _ | .hdrV1LRes _ => false
  | .hdrV2L1 _ | .hdrV2L2 _ | .hdrV2L3 _ | .hdrV2LRes _ => false
  | .hdrV25L1 _ | .hdrV25L2 _ | .hdrV25L3 _ | .hdrV25LRes _ => false
  | .byteLead _ | .byteSkip _ _ | .byteCollect _ _ | .streamIgnored _ => false

/-- The edge's byte is taken. -/
def takesByte (i : Option Instr) : Bool := i.any eventTakes

/-- The edge accepts a START. -/
def startsAt (i : Option Instr) : Bool := i.any eventStarts

/-- The locate completes at the edge. -/
def completesLocateAt (i : Option Instr) : Bool := i.any eventCompletesLocate

/-- R186 (a): the byte of an earlier edge is still offered, with other data. -/
def dataChanged (s : State) (e : Edge) : Bool :=
  e.stream.sValid && s.src.held.any (· != e.stream.sData)

/-- R186 (b), for one level: a byte newly offered after it, or the level dropped while it must be kept. The edge that
accepts a START is itself still bound by what was asserted before it: R186 does not say, and this is the model's choice
(log 6, DESIGN CHOICE). -/
def levelBroken (s : State) (e : Edge) (d : LevelDuty) (level : Bool) : Bool :=
  d.seen && e.stream.sValid && s.src.held.isNone || d.keep && !level

/-- The duty of the source that an edge breaks (R186), whatever else the edge does: R186 excepts no edge, and a reset edge
is bound like any other. That a START edge is bound too is the model's choice (log 6, DESIGN CHOICE). -/
def brokenDuty (s : State) (e : Edge) : Option Refusal :=
  if dataChanged s e then some .unstableStreamData
  else if levelBroken s e s.src.eos e.stream.sEos then some .eosDutyBroken
  else if levelBroken s e s.src.err e.stream.sErr then some .errDutyBroken
  else none

/-- What the source owes for a level after an edge that accepted `i` (R186 b, c). The level is asserted at an edge where
it is high and was not at the last; a START makes a level that stays high a new assertion at the next edge (log 6). -/
def levelDutyAfter (d : LevelDuty) (level : Bool) (i : Option Instr) : LevelDuty where
  seen := !startsAt i && (d.seen || level)
  keep := !startsAt i && !completesLocateAt i && (d.keep || level && !d.high)
  high := !startsAt i && level

/-- The duties that stand after an edge that accepted `i`. -/
def dutiesAfter (s : State) (e : Edge) (i : Option Instr) : Duties where
  held := if e.stream.sValid && !takesByte i then some e.stream.sData else none
  eos := levelDutyAfter s.src.eos e.stream.sEos i
  err := levelDutyAfter s.src.err e.stream.sErr i

/-- Past the edge `e`: the script goes on with `rest`, and the duties follow. No register changes. -/
def State.advance (s : State) (e : Edge) (rest : List Edge) : State :=
  { s with src := dutiesAfter s e (select s e), inputs := rest }

/-! ## A table word at the next edge -/

/-- The edge that offers what a port carries. A header word is offered as the operand of DECODE (log 10). -/
def edgeOf : PortWord → Edge
  | .rst r => { quiet with rst := r = 1#1 }
  | .stream v => { quiet with stream := StreamVec.ofBits v }
  | .header w => { quiet with cValid := true, cOp := 0b10#2, cWord := w }
  | .command v => { quiet with cValid := true, cOp := v.extractLsb' 32 2, cWord := v.extractLsb' 0 32 }

/-- The control state in which the edge's event is accepted: the stream rows by their own condition, DECODE (and a
header word) outside a locate, everything else anywhere. -/
def readyFor (l : LState) (n : BitVec 2) : PortWord → Bool
  | .stream v => l = tableControl (.stream v) && n = 0#2 || (l = .done && tableControl (.stream v) = .idle)
  | .header _ => !locating l
  | .command v => !(v.extractLsb' 32 2 = 0b10#2 && locating l)
  | .rst _ => true

/-- `s` with what a port carries at the next edge, no duty outstanding, and, where its control state would not accept the
event, in the control state in which the table's word is read (`tableControl`), with no header byte collected. -/
def State.offer (s : State) (p : PortWord) : State :=
  { s with
      lstate := if readyFor s.lstate s.ncol p then s.lstate else tableControl p
      ncol := if readyFor s.lstate s.ncol p then s.ncol else 0#2
      src := Duties.none
      inputs := edgeOf p :: s.inputs }

/-- `s` with a table word at the next edge; unchanged where no port carries such a word. -/
def placeWord (s : State) (nbits w : Nat) : State :=
  match portWord nbits w with
  | .ok p => s.offer p
  | .error _ => s

end Sys2Proof.Machine
end

