-- ==== Sys2Proof/Machine/Step.lean ====
section
/-! DEFINITION. One step: one rising edge of `clk` (10_state.md R36). -/

namespace Sys2Proof.Machine

/-- One rising edge. An ill-formed configuration is refused (00_scope.md R6), and so is an edge at which the source
breaks a duty (70_reset_and_hazards.md R186). The accepted event takes effect in one atomic step (00_scope.md R10); an
edge that accepts none changes no register. With no edge left in the script, nothing is driven and nothing changes (log 3). -/
def step (s : State) : Host.Outcome State Fault Refusal :=
  if configWf s.cfg then
    match s.inputs with
    | [] => .next s
    | e :: rest =>
      match brokenDuty s e with
      | some r => .refused r
      | none =>
        match select s e with
        | none => .next (s.advance e rest)
        | some i => exec i (s.advance e rest)
  else .refused .illFormedConfig

/-- `s` with a word of opcode_table.json at the edge that the next step takes (log 9). -/
def State.withFetchWord (s : State) (nbits w : Nat) : State := placeWord s nbits w

end Sys2Proof.Machine
end

