-- ==== Sys2Proof/Machine/Locate.lean ====
section
/-! DEFINITION. The pure function of a locate (40_locator.md R95). -/

namespace Sys2Proof.Machine

/-- `term` (R95). -/
inductive Term where
  | eos
  | err
  | opened
  deriving DecidableEq, Repr

/-- `Outcome` (R95). -/
inductive Located where
  | found (w : Word)
  | notFound (c : Cause)
  | unavailable
  | pending (l : LState) (ncol : Nat)
  deriving DecidableEq, Repr

/-- What a list without four header bytes ends in. -/
def locateShort (term : Term) (atEos : Cause) (l : LState) (ncol : Nat) : Located :=
  match term with
  | .eos => .notFound atEos
  | .err => .unavailable
  | .opened => .pending l ncol

/-- `locate` from the lead byte on: `tail` is the list from the first 0xFF, `skipped` the bytes before it. -/
def locateTail (term : Term) (skipped : Nat) : List Byte → Located × Nat
  | [] => (locateShort term .noLead .scan 0, skipped)
  | [_] => (locateShort term .truncated .collect 1, skipped + 1)
  | [_, _] => (locateShort term .truncated .collect 2, skipped + 2)
  | [_, _, _] => (locateShort term .truncated .collect 3, skipped + 3)
  | b0 :: b1 :: b2 :: b3 :: _ => (.found (b0 ++ b1 ++ b2 ++ b3), skipped + 4)

/-- `locate(bs, term)`: the outcome and the count of bytes consumed (R95). -/
def locate (bs : List Byte) (term : Term) : Located × Nat :=
  locateTail term (bs.takeWhile (· != 0xFF#8)).length (bs.dropWhile (· != 0xFF#8))

/-- The bytes that remain at the source after the locate (R95, R96), where the next one begins (70_reset_and_hazards.md R188). -/
def remaining (bs : List Byte) (term : Term) : List Byte := bs.drop (locate bs term).2

end Sys2Proof.Machine
end

