-- ==== Sys2Proof/Machine/Program.lean ====
section
/-! DEFINITION. Programs (30_encoding.md R77, R78; 40_locator.md R94): lines, what each offers, when a line is accepted,
and running a program, which is refused at the first line that is not. -/

namespace Sys2Proof.Machine

/-- A program line (R77). `reserved` issues `c_op` 11; it has no syntax, and every program with it is refused (R83). -/
inductive Line where
  | reset
  | nop
  | start
  | decode (w : Word)
  | byte (b : Byte)
  | eos
  | err
  | reserved
  deriving DecidableEq, Repr

/-- The port values a line drives for one edge (R77). -/
def Line.edge : Line → Edge
  | .reset => { quiet with rst := true }
  | .nop => { quiet with cValid := true, cOp := 0b00#2 }
  | .start => { quiet with cValid := true, cOp := 0b01#2 }
  | .decode w => { quiet with cValid := true, cOp := 0b10#2, cWord := w }
  | .byte b => { quiet with stream := { sErr := false, sValid := true, sEos := false, sData := b } }
  | .eos => { quiet with stream := { sErr := false, sValid := false, sEos := true, sData := 0#8 } }
  | .err => { quiet with stream := { sErr := true, sValid := false, sEos := false, sData := 0#8 } }
  | .reserved => { quiet with cValid := true, cOp := 0b11#2 }

/-- The event is accepted in the state it meets (R77): no stream line in IDLE or DONE, no DECODE in SCAN or COLLECT, and
the reserved command nowhere (R83). -/
def Line.accepted (s : State) : Line → Bool
  | .reset | .nop | .start => true
  | .decode _ => !locating s.lstate
  | .byte _ | .eos | .err => locating s.lstate
  | .reserved => false

/-- One line: its event at the next edge, or the refusal of an ill-formed program. -/
def runLine (s : State) (l : Line) : Host.Outcome State Fault Refusal :=
  if l.accepted s then step { s with inputs := l.edge :: s.inputs } else .refused .illFormedProgram

/-- The lines in order (R77). -/
def runProgram (s : State) : List Line → Host.Outcome State Fault Refusal
  | [] => .next s
  | l :: ls =>
    match runLine s l with
    | .next t => runProgram t ls
    | .fault r => .fault r
    | .refused r => .refused r

/-- `FEED b0 … bn` (R78). -/
def feed (bs : List Byte) : List Line := bs.map .byte

/-- The terminator line of `LOCATE`, written only if the locate has not completed by then (R78). -/
def terminator (term : Term) : Located → List Line
  | .found _ => []
  | .notFound _ | .unavailable | .pending _ _ =>
    match term with
    | .eos => [.eos]
    | .err => [.err]
    | .opened => []

/-- `LOCATE b0 … bn [EOS|ERR]` (R78). -/
def locateLines (bs : List Byte) (term : Term) : List Line :=
  .start :: (feed (bs.take (locate bs term).2) ++ terminator term (locate bs term).1)

/-- The bytes the host offers again to re-scan from the byte after a false lead (40_locator.md R94). -/
def replayBytes (raw : Word) : List Byte := [raw.extractLsb' 16 8, raw.extractLsb' 8 8, raw.extractLsb' 0 8]

end Sys2Proof.Machine
end

