-- ==== Sys2Proof/Machine/Assembly.lean ====
section
/-! DEFINITION. The text of a program (30_encoding.md R77, R78): one operation a line, `;` starts a comment. Text is a
list of characters. What R77 leaves open (blanks, letter case, blank lines) is log 19. -/

namespace Sys2Proof.Machine

/-- A hexadecimal digit, in either case (log 19). -/
def hexDigit (c : Char) : Option Nat :=
  if 48 ≤ c.toNat && c.toNat ≤ 57 then some (c.toNat - 48)
  else if 65 ≤ c.toNat && c.toNat ≤ 70 then some (c.toNat - 55)
  else if 97 ≤ c.toNat && c.toNat ≤ 102 then some (c.toNat - 87)
  else none

/-- Digits, most significant first (00_scope.md R7). -/
def hexValue : List Char → Nat → Option Nat
  | [], acc => some acc
  | c :: cs, acc =>
    match hexDigit c with
    | some d => hexValue cs (acc * 16 + d)
    | none => none

/-- `0xHHHHHHHH`. -/
def wordLiteral : List Char → Option Word
  | '0' :: 'x' :: ds => if ds.length = 8 then (hexValue ds 0).map (BitVec.ofNat 32) else none
  | _ => none

/-- `HH`, as FEED and LOCATE write a byte. -/
def bareByte (ds : List Char) : Option Byte :=
  if ds.length = 2 then (hexValue ds 0).map (BitVec.ofNat 8) else none

/-- `0xHH`. -/
def byteLiteral : List Char → Option Byte
  | '0' :: 'x' :: ds => bareByte ds
  | _ => none

/-- The text split at the separators. -/
def splitText (sep : Char → Bool) : List Char → List (List Char)
  | [] => [[]]
  | c :: cs =>
    match splitText sep cs with
    | [] => [[c]]
    | t :: ts => if sep c then [] :: t :: ts else (c :: t) :: ts

/-- A line without its comment, as the words between blanks. -/
def tokens (line : List Char) : List (List Char) :=
  (splitText (fun c => c = ' ' || c = '\t' || c = '\r') (line.takeWhile (· != ';'))).filter fun t => !t.isEmpty

/-- A list of bytes. -/
def byteList : List (List Char) → Option (List Byte)
  | [] => some []
  | t :: ts =>
    match bareByte t, byteList ts with
    | some b, some bs => some (b :: bs)
    | _, _ => none

def eosWord : List Char := ['E', 'O', 'S']
def errWord : List Char := ['E', 'R', 'R']

/-- LOCATE's operands: bytes, then an optional terminator (R78). -/
def locateOperands (ts : List (List Char)) : Option (List Byte × Term) :=
  match ts.getLast? with
  | some t =>
    if t = eosWord then (byteList ts.dropLast).map (·, .eos)
    else if t = errWord then (byteList ts.dropLast).map (·, .err)
    else (byteList ts).map (·, .opened)
  | none => some ([], .opened)

/-- The lines that one line of text stands for, pseudo-operations expanded (R77, R78); none for a blank line. -/
def parseLine (ts : List (List Char)) : Option (List Line) :=
  match ts with
  | [] => some []
  | op :: args =>
    if op = ['F', 'E', 'E', 'D'] then (byteList args).map feed
    else if op = ['L', 'O', 'C', 'A', 'T', 'E'] then (locateOperands args).map fun p => locateLines p.1 p.2
    else match args with
      | [] =>
        if op = ['R', 'E', 'S', 'E', 'T'] then some [.reset]
        else if op = ['N', 'O', 'P'] then some [.nop]
        else if op = ['S', 'T', 'A', 'R', 'T'] then some [.start]
        else if op = eosWord then some [.eos]
        else if op = errWord then some [.err]
        else none
      | [a] =>
        if op = ['D', 'E', 'C', 'O', 'D', 'E'] then (wordLiteral a).map fun w => [.decode w]
        else if op = ['B', 'Y', 'T', 'E'] then (byteLiteral a).map fun b => [.byte b]
        else none
      | _ => none

/-- The lines of several lines of text. -/
def assembleLines : List (List Char) → Option (List Line)
  | [] => some []
  | t :: ts =>
    match parseLine (tokens t), assembleLines ts with
    | some a, some b => some (a ++ b)
    | _, _ => none

/-- A program's text; `none` where a line is none of R77's and R78's. -/
def assembleText (text : List Char) : Option (List Line) := assembleLines (splitText (· = '\n') text)

end Sys2Proof.Machine
end

