-- ==== Sys2Proof/Safety.lean ====
section
/-! DEFINITION. What holds of every state a run reaches (10_state.md R37, and what the registers of a state say of each
other), and what the claims compare. -/

namespace Sys2Proof.Machine

/-- STATUS is 0 exactly outside DONE; CAUSE goes with STATUS; NCOL goes with LSTATE (R25, R26, R28, R29, R37). -/
structure ControlInv (s : State) : Prop where
  ncolRange : s.lstate = .collect ↔ s.ncol ≠ 0#2
  statusDone : s.status = .none ↔ s.lstate ≠ .done
  causeOfNone : (s.status = .none ∨ s.status = .ok ∨ s.status = .streamUnavailable) → s.cause = .none
  causeOfSyncNotFound : s.status = .syncNotFound → s.cause = .noLead ∨ s.cause = .truncated
  causeOfInvalid : s.status = .invalidHeader →
    s.cause = .sync ∨ s.cause = .version ∨ s.cause = .layer ∨ s.cause = .sampleRate ∨ s.cause = .bitrate

/-- What RAW holds: nothing before a lead byte, the bytes taken so far after it, led by 0xFF (R26; 60_exceptions.md R161). -/
structure RawInv (s : State) : Prop where
  beforeLead : s.lstate = .idle ∨ s.lstate = .scan ∨ s.cause = .noLead → s.raw = 0#32
  partialHeader : s.lstate = .collect → s.raw.toNat / 2 ^ (8 * (s.ncol.toNat - 1)) = 0xFF

/-- What the result registers hold: the decode of RAW when STATUS is OK, and 0 otherwise (R27); an INVALID_HEADER's cause
is that of RAW (60_exceptions.md R162). -/
structure ResultInv (s : State) : Prop where
  okHeader : s.status = .ok → ∃ h, decode s.cfg s.raw = .header h ∧ s.res = results s.raw h
  zeroOtherwise : s.status ≠ .ok → s.res = Results.zero
  invalidCause : s.status = .invalidHeader → decode s.cfg s.raw = .invalid s.cause

/-- The registers of configured width fit them (10_state.md R26, R27; 00_scope.md R6). -/
structure WidthInv (s : State) : Prop where
  count : s.count < 2 ^ s.cfg.wCount
  brKbps : s.res.brKbps < 2 ^ s.cfg.wBr
  srHz : s.res.srHz < 2 ^ s.cfg.wSr
  slots : s.res.slots < 2 ^ s.cfg.wSlots
  bytes : s.res.bytes < 2 ^ s.cfg.wBytes

/-- The invariant of a run under a well-formed configuration. -/
structure Inv (s : State) : Prop where
  cfgWf : configWf s.cfg = true
  control : ControlInv s
  raw : RawInv s
  result : ResultInv s
  widths : WidthInv s

/-- Every register of the block as it was (10_state.md R25 to R29), the ROMs among the configuration. -/
def SameRegisters (s t : State) : Prop :=
  t.cfg = s.cfg ∧ t.lstate = s.lstate ∧ t.ncol = s.ncol ∧ t.raw = s.raw ∧ t.count = s.count ∧ t.status = s.status ∧
    t.cause = s.cause ∧ t.res = s.res

/-- No reset, stall or accepted command takes the cycle, so the stream port is looked at (10_state.md R36). -/
def StreamTurn (s : State) (e : Edge) : Prop :=
  e.rst = false ∧ e.stall = false ∧ ¬ (e.cValid = true ∧ cReady s e = true)

/-- The edge offers the command `op`, and neither reset nor a stall takes the cycle (10_state.md R36). -/
def CommandTurn (e : Edge) (op : BitVec 2) : Prop := e.rst = false ∧ e.stall = false ∧ e.cValid = true ∧ e.cOp = op

/-- The class of a version and layer that are not reserved (30_encoding.md R72). -/
def classOf : Version → Layer → HeaderFields → Instr
  | .v1, .i => .hdrV1L1
  | .v1, .ii => .hdrV1L2
  | .v1, .iii => .hdrV1L3
  | .v2, .i => .hdrV2L1
  | .v2, .ii => .hdrV2L2
  | .v2, .iii => .hdrV2L3
  | .v25, .i => .hdrV25L1
  | .v25, .ii => .hdrV25L2
  | .v25, .iii => .hdrV25L3

/-- No byte stands offered, no level must be kept high, and a level seen belongs to no locate in progress. -/
def Quiescent (s : State) : Prop :=
  s.src.held = none ∧ s.src.eos.keep = false ∧ s.src.err.keep = false ∧
    (s.src.eos.seen = true ∨ s.src.err.seen = true → locating s.lstate = false)

/-- The edge breaks duty (a) of 70_reset_and_hazards.md R186: other data while the byte is still offered. -/
def BreaksDataDuty (s : State) (e : Edge) : Prop :=
  ∃ b, s.src.held = some b ∧ e.stream.sValid = true ∧ e.stream.sData ≠ b

/-- The edge breaks duty (b) of R186: a byte newly offered after `s_eos`, or `s_eos` dropped while it must be kept. -/
def BreaksEosDuty (s : State) (e : Edge) : Prop :=
  (s.src.eos.seen = true ∧ s.src.held = none ∧ e.stream.sValid = true) ∨ (s.src.eos.keep = true ∧ e.stream.sEos = false)

/-- The edge breaks duty (c) of R186: the same for `s_err` (log 7). -/
def BreaksErrDuty (s : State) (e : Edge) : Prop :=
  (s.src.err.seen = true ∧ s.src.held = none ∧ e.stream.sValid = true) ∨ (s.src.err.keep = true ∧ e.stream.sErr = false)

end Sys2Proof.Machine
end

