-- ==== Sys2Proof/Certificates/Slice0/Obligations.lean ====
section
/-! DEFINITION. The statements for the provers, from the numbered rules of spec/. -/

open Sys2Proof Sys2Proof.Machine

/-! ## Steps and event selection -/

/-- 10_state.md R36, 00_scope.md R10: a step at an edge runs the event that the edge accepts, past the edge; an edge that
accepts none changes no register. -/
def Obligations.StepRunsTheAcceptedEvent : Prop :=
  ∀ (s : State) (e : Edge) (rest : List Edge), configWf s.cfg = true → s.inputs = e :: rest → brokenDuty s e = none →
    SameRegisters s (s.advance e rest) ∧ (s.advance e rest).inputs = rest ∧
    (∀ i, select s e = some i → step s = exec i (s.advance e rest)) ∧
    (select s e = none → step s = .next (s.advance e rest))

/-- The word of an instruction, placed where the next step fetches, is what that step runs (log 9, log 10: the placing is
the model's choice). For a header word the step is DECODE's, and it equals the header class's own meaning. -/
def Obligations.StepRunsThePlacedTableWord : Prop :=
  ∀ (s : State) (nbits w : Nat) (i : Instr), configWf s.cfg = true → decodeTableWord nbits w = some i →
    ∃ d : Duties, step (s.withFetchWord nbits w) = exec i { s.withFetchWord nbits w with src := d, inputs := s.inputs }

/-- 10_state.md R36: the order of precedence of what an edge does. -/
def Obligations.EventPrecedence : Prop :=
  ∀ (s : State) (e : Edge),
    (e.rst = true → select s e = some .reset) ∧
    (e.rst = false → e.stall = true → select s e = none) ∧
    (e.rst = false → e.stall = false →
      (e.cValid = true → cReady s e = true →
        select s e = some (if e.cOp = 0b00#2 then .nop e.cWord else if e.cOp = 0b01#2 then .start e.cWord
          else if e.cOp = 0b10#2 then .decode e.cWord else .cmdReserved e.cWord)) ∧
      (¬ (e.cValid = true ∧ cReady s e = true) →
        ((s.lstate = .scan ∨ s.lstate = .collect) →
          (e.stream.sErr = true → select s e = some (.sErr e.stream.sValid e.stream.sEos e.stream.sData)) ∧
          (e.stream.sErr = false → e.stream.sValid = true → sReady s e = true ∧
            select s e = some
              (if s.lstate = .scan then
                if e.stream.sData = 0xFF#8 then .byteLead e.stream.sEos else .byteSkip e.stream.sEos e.stream.sData
              else if s.ncol = 3#2 then .byteFinal e.stream.sEos e.stream.sData
              else .byteCollect e.stream.sEos e.stream.sData)) ∧
          (e.stream.sErr = false → e.stream.sValid = false → e.stream.sEos = true →
            select s e = some (if s.lstate = .scan then .eosScan e.stream.sData else .eosCollect e.stream.sData)) ∧
          (e.stream.sErr = false → e.stream.sValid = false → e.stream.sEos = false → select s e = none)) ∧
        (s.lstate = .idle ∨ s.lstate = .done →
          ∀ t, (match select s e with | none => .next t | some i => exec i t) = Host.Outcome.next t)))

/-- 10_state.md R30: `done`, `c_ready` and `s_ready` outside stall cycles. -/
def Obligations.HandshakeOutputs : Prop :=
  ∀ (s : State) (e : Edge), e.stall = false →
    ((outputs s e).shown.done = true ↔ s.lstate = .done) ∧
    ((outputs s e).cReady = false ↔ e.cOp = 0b10#2 ∧ (s.lstate = .scan ∨ s.lstate = .collect)) ∧
    ((outputs s e).sReady = true ↔ (s.lstate = .scan ∨ s.lstate = .collect) ∧
      ¬ (e.cValid = true ∧ (outputs s e).cReady = true) ∧ e.stream.sErr = false)

/-- 10_state.md R24: outside stall cycles each register output shows its register, by the codes of R25 and of
60_exceptions.md R160 to R162. An edge with `rst` 1 is no stall cycle (10_state.md R36, 70_reset_and_hazards.md R180). -/
def Obligations.OutputsShowTheRegisters : Prop :=
  ∀ (s : State) (e : Edge), e.rst = true ∨ e.stall = false →
    (outputs s e).shown =
      { state := match s.lstate with | .idle => 0b00#2 | .scan => 0b01#2 | .collect => 0b10#2 | .done => 0b11#2
        done := decide (s.lstate = .done)
        status := match s.status with
          | .none => 0#3 | .ok => 1#3 | .syncNotFound => 2#3 | .invalidHeader => 3#3 | .streamUnavailable => 4#3
        cause := match s.cause with
          | .none => 0#3 | .sync => 1#3 | .version => 2#3 | .layer => 3#3 | .sampleRate => 4#3 | .bitrate => 5#3
          | .noLead => 6#3 | .truncated => 7#3
        raw := s.raw, count := s.count, ver := s.res.ver, lay := s.res.lay, prot := s.res.prot, crcEn := s.res.crcEn
        bri := s.res.bri, sri := s.res.sri, pad := s.res.pad, priv := s.res.priv, mode := s.res.mode
        modext := s.res.modext, copy := s.res.copy, orig := s.res.orig, emph := s.res.emph, brKbps := s.res.brKbps
        srHz := s.res.srHz, slots := s.res.slots, bytes := s.res.bytes }

/-- 10_state.md R30, R36: outside reset a byte is taken exactly when it is offered and `s_ready` is 1. -/
def Obligations.ByteTakenExactlyWhenReady : Prop :=
  ∀ (s : State) (e : Edge), e.rst = false →
    (takesByte (select s e) = true ↔ e.stream.sValid = true ∧ (outputs s e).sReady = true)

/-- 70_reset_and_hazards.md R190, 10_state.md R34: a stall cycle accepts no event and changes no register, and shows both
ready outputs 0. -/
def Obligations.StallCycleIsANoOp : Prop :=
  ∀ (s : State) (e : Edge) (rest : List Edge), configWf s.cfg = true → s.inputs = e :: rest → brokenDuty s e = none →
    e.rst = false → e.stall = true →
    (∃ t, step s = .next t ∧ SameRegisters s t ∧ t.inputs = rest) ∧
    (outputs s e).cReady = false ∧ (outputs s e).sReady = false

/-- 70_reset_and_hazards.md R186: an edge at which the source breaks a duty that stands is refused, each duty by its name
(of several, the first in the rule's order), and no other edge breaks one. When a duty stands, that the edge of a START is
bound by it too, and that `s_err` has both parts of (b), are the model's readings (log 6, log 7). -/
def Obligations.BrokenDutiesAreRefused : Prop :=
  ∀ (s : State) (e : Edge) (rest : List Edge), configWf s.cfg = true → s.inputs = e :: rest →
    (BreaksDataDuty s e → step s = .refused .unstableStreamData) ∧
    (¬ BreaksDataDuty s e → BreaksEosDuty s e → step s = .refused .eosDutyBroken) ∧
    (¬ BreaksDataDuty s e → ¬ BreaksEosDuty s e → BreaksErrDuty s e → step s = .refused .errDutyBroken) ∧
    (brokenDuty s e = none ↔ ¬ BreaksDataDuty s e ∧ ¬ BreaksEosDuty s e ∧ ¬ BreaksErrDuty s e)

/-- 70_reset_and_hazards.md R186: which duties stand after an edge. The byte owed is the one offered and not taken. A level
bars new bytes from its assertion until a START; it must be kept high from its assertion until the locate completes or a
START is accepted. What counts as an assertion is the model's reading (log 6). -/
def Obligations.DutiesFollowTheEdges : Prop :=
  ∀ (s t : State) (e : Edge) (rest : List Edge), s.inputs = e :: rest → step s = .next t →
    t.inputs = rest ∧
    (∀ b, t.src.held = some b ↔ e.stream.sValid = true ∧ e.stream.sData = b ∧ takesByte (select s e) = false) ∧
    ∀ started completed : Prop, (started ↔ ∃ w, select s e = some (.start w)) →
      (completed ↔ (s.lstate = .scan ∨ s.lstate = .collect) ∧ t.lstate = .done) →
      (t.src.eos.seen = true ↔ ¬ started ∧ (s.src.eos.seen = true ∨ e.stream.sEos = true)) ∧
      (t.src.eos.keep = true ↔ ¬ started ∧ ¬ completed ∧
        (s.src.eos.keep = true ∨ (e.stream.sEos = true ∧ s.src.eos.high = false))) ∧
      (t.src.eos.high = true ↔ ¬ started ∧ e.stream.sEos = true) ∧
      (t.src.err.seen = true ↔ ¬ started ∧ (s.src.err.seen = true ∨ e.stream.sErr = true)) ∧
      (t.src.err.keep = true ↔ ¬ started ∧ ¬ completed ∧
        (s.src.err.keep = true ∨ (e.stream.sErr = true ∧ s.src.err.high = false))) ∧
      (t.src.err.high = true ↔ ¬ started ∧ e.stream.sErr = true)

/-- Nothing else stops a step: under a well-formed configuration it answers a next state unless the source breaks a duty
(70_reset_and_hazards.md R186; 60_exceptions.md R165). Two of the edges this covers rest on the model's own readings: one
that issues the reserved command, which the spec has a model refuse in a PROGRAM (log 5, DEDUCED), and the end of the script
(log 3, DESIGN CHOICE). -/
def Obligations.StepAnswersUnlessADutyIsBroken : Prop :=
  ∀ s : State, configWf s.cfg = true → (∀ e rest, s.inputs = e :: rest → brokenDuty s e = none) → ∃ t, step s = .next t

/-- 00_scope.md R6: what a well-formed configuration is, and that a step refuses any other. -/
def Obligations.WellFormedConfiguration : Prop :=
  (∀ c : Config, configWf c = true ↔
    (∀ k l, (c.brRom.row k l).length = (if (k, l) ∈ c.shortRows then 14 else 15)) ∧
    (∀ v, (c.srRom.row v).length = 3) ∧
    (∀ v, ∀ hz ∈ c.srRom.row v, hz ≠ 0 ∧ hz < 2 ^ c.wSr) ∧
    (∀ k l, ∀ kbps ∈ c.brRom.row k l, kbps < 2 ^ c.wBr) ∧
    (∀ k l, c.readBr k l 0 = some 0) ∧
    c.readBr .c1 .iii 9 = some 128 ∧
    c.readSr .v1 0 = some 44100 ∧
    (∀ w h, decode c w = .header h → frameLengthSlots h < 2 ^ c.wSlots ∧ frameSizeBytes h < 2 ^ c.wBytes)) ∧
  (∀ s : State, configWf s.cfg = false → step s = .refused .illFormedConfig) ∧
  configWf Config.default = true

/-! ## Commands and reset -/

/-- 70_reset_and_hazards.md R180, 10_state.md R35: the reset step, at an edge with `rst` 1, whatever else the edge offers
(it breaks no duty of the source, R186). No byte is taken (one offered there stays at the source), and the outputs show the
reset values from then on, in every cycle with `rst` 1 and in every other that is no stall cycle, until the next step. -/
def Obligations.ResetStep : Prop :=
  ∀ (s : State) (e : Edge) (rest : List Edge), configWf s.cfg = true → s.inputs = e :: rest → brokenDuty s e = none →
    e.rst = true →
    select s e = some .reset ∧ takesByte (select s e) = false ∧
    ∃ t, step s = .next t ∧ t.lstate = .idle ∧ t.ncol = 0#2 ∧ t.raw = 0x00000000#32 ∧ t.count = 0 ∧
      t.status = .none ∧ t.cause = .none ∧
      t.res = { ver := 0, lay := 0, prot := 0, crcEn := 0, bri := 0, sri := 0, pad := 0, priv := 0, mode := 0, modext := 0,
                copy := 0, orig := 0, emph := 0, brKbps := 0, srHz := 0, slots := 0, bytes := 0 } ∧
      t.cfg = s.cfg ∧ t.inputs = rest ∧ t.src.held = (if e.stream.sValid then some e.stream.sData else none) ∧
      ∀ e' : Edge, e'.rst = true ∨ e'.stall = false → (outputs t e').shown =
                { state := 0b00#2, done := false, status := 0, cause := 0, raw := 0x00000000#32, count := 0, ver := 0,
                  lay := 0, prot := 0, crcEn := 0, bri := 0, sri := 0, pad := 0, priv := 0, mode := 0, modext := 0,
                  copy := 0, orig := 0, emph := 0, brKbps := 0, srHz := 0, slots := 0, bytes := 0 }

/-- 70_reset_and_hazards.md R180: RESET completes in every state, with 10_state.md R35's values; the ROMs stay. -/
def Obligations.ResetCompletes : Prop :=
  ∀ s : State, exec .reset s =
    .next { s with lstate := .idle, ncol := 0#2, raw := 0x00000000#32, count := 0, status := .none, cause := .none,
                   res := Results.zero }

/-- 40_locator.md R81: START is accepted in every LSTATE; it arms a locate, clears every result and takes no byte. -/
def Obligations.StartArmsALocate : Prop :=
  (∀ (s : State) (w : Word), exec (.start w) s =
    .next { s with lstate := .scan, ncol := 0#2, raw := 0x00000000#32, count := 0, status := .none, cause := .none,
                   res := Results.zero }) ∧
  (∀ (s : State) (e : Edge), CommandTurn e 0b01#2 →
    cReady s e = true ∧ select s e = some (.start e.cWord) ∧ takesByte (select s e) = false)

/-- 40_locator.md R82: NOP is accepted in every LSTATE, changes no register, and takes the cycle from an offered byte. -/
def Obligations.NopChangesNothing : Prop :=
  (∀ (s : State) (w : Word), exec (.nop w) s = .next s) ∧
  (∀ (s : State) (e : Edge), CommandTurn e 0b00#2 →
    cReady s e = true ∧ select s e = some (.nop e.cWord) ∧ takesByte (select s e) = false)

/-- 40_locator.md R83: the reserved command is accepted and changes no register; a program that issues it is refused. -/
def Obligations.ReservedCommandChangesNothing : Prop :=
  (∀ (s : State) (w : Word), exec (.cmdReserved w) s = .next s) ∧
  (∀ (s : State) (e : Edge), CommandTurn e 0b11#2 →
    cReady s e = true ∧ select s e = some (.cmdReserved e.cWord) ∧ takesByte (select s e) = false) ∧
  (∀ (s t : State) (ls rest : List Line), runProgram s ls = .next t →
    runProgram s (ls ++ .reserved :: rest) = .refused .illFormedProgram)

/-- 41_decoder.md R126, R125: DECODE is accepted in IDLE and DONE and commits its word: RAW, STATUS, CAUSE, LSTATE and the
results from the word's own bits, COUNT and the stream untouched. In SCAN and COLLECT it is held. -/
def Obligations.DecodeCommitsItsWord : Prop :=
  (∀ (s : State) (w : Word), configWf s.cfg = true → s.lstate = .idle ∨ s.lstate = .done →
    (∀ h, decode s.cfg w = .header h → exec (.decode w) s =
      .next { s with
        raw := w, lstate := .done, ncol := 0#2, status := .ok, cause := .none
        res := { ver := w.extractLsb 20 19, lay := w.extractLsb 18 17, prot := w.extractLsb 16 16,
                 crcEn := ~~~ w.extractLsb 16 16, bri := w.extractLsb 15 12, sri := w.extractLsb 11 10,
                 pad := w.extractLsb 9 9, priv := w.extractLsb 8 8, mode := w.extractLsb 7 6, modext := w.extractLsb 5 4,
                 copy := w.extractLsb 3 3, orig := w.extractLsb 2 2, emph := w.extractLsb 1 0,
                 brKbps := h.bitrateKbps, srHz := h.sampleRateHz,
                 slots := frameLengthSlots h, bytes := frameSizeBytes h } }) ∧
    (∀ c, decode s.cfg w = .invalid c → exec (.decode w) s =
      .next { s with raw := w, lstate := .done, ncol := 0#2, status := .invalidHeader, cause := c, res := Results.zero }) ∧
    ((∃ h, decode s.cfg w = .header h) ∨ ∃ c, decode s.cfg w = .invalid c)) ∧
  (∀ (s : State) (e : Edge), CommandTurn e 0b10#2 →
    (s.lstate = .idle ∨ s.lstate = .done →
      cReady s e = true ∧ select s e = some (.decode e.cWord) ∧ takesByte (select s e) = false) ∧
    (s.lstate = .scan ∨ s.lstate = .collect → cReady s e = false))

/-- 70_reset_and_hazards.md R184: a DECODE offered during a locate is held: not accepted, and the stream goes on. -/
def Obligations.DecodeIsHeldDuringALocate : Prop :=
  (∀ (s : State) (w : Word), s.lstate = .scan ∨ s.lstate = .collect → exec (.decode w) s = .next s) ∧
  (∀ (s : State) (e : Edge), s.lstate = .scan ∨ s.lstate = .collect → CommandTurn e 0b10#2 →
    cReady s e = false ∧ select s e = select s { e with cValid := false }) ∧
  (∀ (s : State) (w : Word) (ls : List Line), s.lstate = .scan ∨ s.lstate = .collect →
    runProgram s (.decode w :: ls) = .refused .illFormedProgram)

/-! ## Stream events -/

/-- 40_locator.md R84: a byte other than 0xFF in SCAN is taken and counted, and nothing else. -/
def Obligations.ByteSkipOnlyCounts : Prop :=
  ∀ s : State, s.lstate = .scan →
    (∀ (sEos : Bool) (b : Byte), b ≠ 0xFF#8 →
      exec (.byteSkip sEos b) s = .next { s with count := (s.count + 1) % 2 ^ s.cfg.wCount }) ∧
    (∀ e : Edge, StreamTurn s e → e.stream.sErr = false → e.stream.sValid = true → e.stream.sData ≠ 0xFF#8 →
      select s e = some (.byteSkip e.stream.sEos e.stream.sData) ∧ takesByte (select s e) = true)

/-- 40_locator.md R85: the byte 0xFF in SCAN begins a candidate header. -/
def Obligations.LeadByteBeginsAHeader : Prop :=
  ∀ s : State, s.lstate = .scan →
    (∀ sEos : Bool, exec (.byteLead sEos) s =
      .next { s with count := (s.count + 1) % 2 ^ s.cfg.wCount, raw := 0x000000FF#32, ncol := 1#2, lstate := .collect }) ∧
    (∀ e : Edge, StreamTurn s e → e.stream.sErr = false → e.stream.sValid = true → e.stream.sData = 0xFF#8 →
      select s e = some (.byteLead e.stream.sEos) ∧ takesByte (select s e) = true)

/-- 40_locator.md R86: the second and third header bytes shift into RAW, any value, 0xFF included. -/
def Obligations.CollectShiftsTheByteIn : Prop :=
  ∀ s : State, s.lstate = .collect → s.ncol = 1#2 ∨ s.ncol = 2#2 →
    (∀ (sEos : Bool) (b : Byte), exec (.byteCollect sEos b) s =
      .next { s with count := (s.count + 1) % 2 ^ s.cfg.wCount, ncol := s.ncol + 1#2,
                     raw := BitVec.ofNat 32 (s.raw.toNat * 256 + b.toNat) }) ∧
    (∀ e : Edge, StreamTurn s e → e.stream.sErr = false → e.stream.sValid = true →
      select s e = some (.byteCollect e.stream.sEos e.stream.sData) ∧ takesByte (select s e) = true)

/-- 40_locator.md R87: the fourth header byte completes: the assembled word is committed (41_decoder.md R125). -/
def Obligations.FinalByteCommits : Prop :=
  ∀ s : State, configWf s.cfg = true → s.lstate = .collect → s.ncol = 3#2 →
    (∀ (sEos : Bool) (b : Byte) (w : Word), w = BitVec.ofNat 32 (s.raw.toNat * 256 + b.toNat) →
      (∀ h, decode s.cfg w = .header h → exec (.byteFinal sEos b) s =
        .next { s with count := (s.count + 1) % 2 ^ s.cfg.wCount, raw := w, lstate := .done, ncol := 0#2, status := .ok,
                       cause := .none, res := results w h }) ∧
      (∀ c, decode s.cfg w = .invalid c → exec (.byteFinal sEos b) s =
        .next { s with count := (s.count + 1) % 2 ^ s.cfg.wCount, raw := w, lstate := .done, ncol := 0#2,
                       status := .invalidHeader, cause := c, res := Results.zero }) ∧
      ((∃ h, decode s.cfg w = .header h) ∨ ∃ c, decode s.cfg w = .invalid c)) ∧
    (∀ e : Edge, StreamTurn s e → e.stream.sErr = false → e.stream.sValid = true →
      select s e = some (.byteFinal e.stream.sEos e.stream.sData) ∧ takesByte (select s e) = true)

/-- 40_locator.md R88, R89: the end of the stream completes with SYNC_NOT_FOUND; RAW and COUNT stay. -/
def Obligations.EndOfStreamCompletes : Prop :=
  ∀ s : State,
    (s.lstate = .scan →
      (∀ b : Byte, exec (.eosScan b) s =
        .next { s with lstate := .done, ncol := 0#2, status := .syncNotFound, cause := .noLead, res := Results.zero }) ∧
      (∀ e : Edge, StreamTurn s e → e.stream.sErr = false → e.stream.sValid = false → e.stream.sEos = true →
        select s e = some (.eosScan e.stream.sData))) ∧
    (s.lstate = .collect →
      (∀ b : Byte, exec (.eosCollect b) s =
        .next { s with lstate := .done, ncol := 0#2, status := .syncNotFound, cause := .truncated, res := Results.zero }) ∧
      (∀ e : Edge, StreamTurn s e → e.stream.sErr = false → e.stream.sValid = false → e.stream.sEos = true →
        select s e = some (.eosCollect e.stream.sData)))

/-- 40_locator.md R90: a source error during a locate beats a byte and the end of the stream, completes with
STREAM_UNAVAILABLE, and takes no byte; RAW and COUNT stay. -/
def Obligations.SourceErrorCompletes : Prop :=
  ∀ s : State, s.lstate = .scan ∨ s.lstate = .collect →
    (∀ (sValid sEos : Bool) (b : Byte), exec (.sErr sValid sEos b) s =
      .next { s with lstate := .done, ncol := 0#2, status := .streamUnavailable, cause := .none, res := Results.zero }) ∧
    (∀ e : Edge, StreamTurn s e → e.stream.sErr = true →
      select s e = some (.sErr e.stream.sValid e.stream.sEos e.stream.sData) ∧ takesByte (select s e) = false)

/-- 40_locator.md R91: in IDLE and DONE the stream port changes nothing, and a byte offered there is not taken. -/
def Obligations.StreamIsIgnoredOutsideALocate : Prop :=
  (∀ (s : State) (v : StreamVec), s.lstate = .idle ∨ s.lstate = .done → exec (.streamIgnored v) s = .next s) ∧
  (∀ (s : State) (e : Edge), s.lstate = .idle ∨ s.lstate = .done →
    sReady s e = false ∧ takesByte (select s e) = false ∧ (StreamTurn s e → select s e = some (.streamIgnored e.stream)))

/-- 20_memory.md R45: the four bytes of a header make RAW big-endian, and every one is counted. -/
def Obligations.HeaderIsAssembledBigEndian : Prop :=
  ∀ (s : State) (b1 b2 b3 : Byte), configWf s.cfg = true → s.src = Duties.none → s.lstate = .scan →
    ∃ t, runProgram s (feed [0xFF#8, b1, b2, b3]) = .next t ∧ t.raw = 0xFF#8 ++ b1 ++ b2 ++ b3 ∧
      t.raw.toNat = 0xFF * 2 ^ 24 + b1.toNat * 2 ^ 16 + b2.toNat * 2 ^ 8 + b3.toNat ∧
      t.lstate = .done ∧ t.count = (s.count + 4) % 2 ^ s.cfg.wCount

/-- 40_locator.md R95: the pure function `locate`, case by case: no lead byte, a lead byte with three bytes after it, a lead
byte with fewer. -/
def Obligations.LocateFindsTheFirstLead : Prop :=
  ∀ (pre : List Byte) (term : Term), (∀ b ∈ pre, b ≠ 0xFF#8) →
    locate pre term =
      (match term with | .eos => .notFound .noLead | .err => .unavailable | .opened => .pending .scan 0, pre.length) ∧
    (∀ (b1 b2 b3 : Byte) (rest : List Byte), locate (pre ++ 0xFF#8 :: b1 :: b2 :: b3 :: rest) term =
      (.found (0xFF#8 ++ b1 ++ b2 ++ b3), pre.length + 4)) ∧
    (∀ more : List Byte, more.length < 3 → locate (pre ++ 0xFF#8 :: more) term =
      (match term with
        | .eos => .notFound .truncated | .err => .unavailable | .opened => .pending .collect (more.length + 1),
       pre.length + 1 + more.length))

/-- 40_locator.md R95: the steps of a LOCATE reach what the pure function `locate` says: the outcome, the bytes consumed,
and RAW with the bytes taken. -/
def Obligations.LocateRunsAsThePureFunction : Prop :=
  ∀ (s : State) (bs : List Byte) (term : Term), configWf s.cfg = true → s.src = Duties.none →
    ∃ t, runProgram s (locateLines bs term) = .next t ∧ t.cfg = s.cfg ∧ t.inputs = s.inputs ∧
      t.count = (locate bs term).2 % 2 ^ s.cfg.wCount ∧
      match (locate bs term).1 with
      | .found w => t.lstate = .done ∧ t.ncol = 0#2 ∧ t.raw = w ∧
          ((∃ h, decode s.cfg w = .header h ∧ t.status = .ok ∧ t.cause = .none ∧ t.res = results w h) ∨
           (∃ c, decode s.cfg w = .invalid c ∧ t.status = .invalidHeader ∧ t.cause = c ∧ t.res = Results.zero))
      | .notFound c => t.lstate = .done ∧ t.ncol = 0#2 ∧ t.status = .syncNotFound ∧ t.cause = c ∧ t.res = Results.zero ∧
          t.raw = assemble (bs.dropWhile (· != 0xFF#8))
      | .unavailable => t.lstate = .done ∧ t.ncol = 0#2 ∧ t.status = .streamUnavailable ∧ t.cause = .none ∧
          t.res = Results.zero ∧ t.raw = assemble (bs.dropWhile (· != 0xFF#8))
      | .pending l n => t.lstate = l ∧ t.ncol = BitVec.ofNat 2 n ∧ t.status = .none ∧ t.cause = .none ∧
          t.res = Results.zero ∧ t.raw = assemble (bs.dropWhile (· != 0xFF#8))

/-- 40_locator.md R94: after a located header is rejected, START and a replay of RAW[23:0] scan from the byte after the
lead: the replayed bytes are the three that followed it. -/
def Obligations.ReplayOffersTheBytesAfterTheLead : Prop :=
  ∀ (b0 b1 b2 b3 : Byte), replayBytes (b0 ++ b1 ++ b2 ++ b3) = [b1, b2, b3]

/-! ## The decoder -/

/-- 41_decoder.md R114, R101, R102 to R105, R108: exactly when each cause is given; the first check that fails decides. -/
def Obligations.CausePriority : Prop :=
  (∀ (c : Config) (w : Word), configWf c = true →
    (decode c w = .invalid .sync ↔ w.extractLsb 31 21 ≠ 0x7FF#11) ∧
    (decode c w = .invalid .version ↔ w.extractLsb 31 21 = 0x7FF#11 ∧ w.extractLsb 20 19 = 0b01#2) ∧
    (decode c w = .invalid .layer ↔
      w.extractLsb 31 21 = 0x7FF#11 ∧ w.extractLsb 20 19 ≠ 0b01#2 ∧ w.extractLsb 18 17 = 0b00#2) ∧
    (decode c w = .invalid .sampleRate ↔
      w.extractLsb 31 21 = 0x7FF#11 ∧ w.extractLsb 20 19 ≠ 0b01#2 ∧ w.extractLsb 18 17 ≠ 0b00#2 ∧
        w.extractLsb 11 10 = 0b11#2) ∧
    (decode c w = .invalid .bitrate ↔
      w.extractLsb 31 21 = 0x7FF#11 ∧ w.extractLsb 20 19 ≠ 0b01#2 ∧ w.extractLsb 18 17 ≠ 0b00#2 ∧
        w.extractLsb 11 10 ≠ 0b11#2 ∧
        ∃ (v : Version) (l : Layer), v.code = w.extractLsb 20 19 ∧ l.code = w.extractLsb 18 17 ∧
          c.rowLen v.vclass l ≤ (w.extractLsb 15 12).toNat) ∧
    decode c 0xFFFFFFFF#32 = .invalid .sampleRate ∧ decode c 0xFFE80000#32 = .invalid .version)

/-- 41_decoder.md R115: when a word decodes. -/
def Obligations.DecodeSucceedsExactlyWhen : Prop :=
  ∀ (c : Config) (w : Word), configWf c = true →
    ((∃ h, decode c w = .header h) ↔
      w.extractLsb 31 21 = 0x7FF#11 ∧
      ∃ (v : Version) (l : Layer), w.extractLsb 20 19 = v.code ∧ w.extractLsb 18 17 = l.code ∧ w.extractLsb 11 10 ≠ 0b11#2 ∧
        (w.extractLsb 15 12).toNat < c.rowLen v.vclass l) ∧
    ((¬ ∃ h, decode c w = .header h) → ∃ x, decode c w = .invalid x)

/-- 41_decoder.md R101, R110; 30_encoding.md R63, R64, R68, R70: what a decoded record holds, field by field, from the word
and the ROMs. Which name a channel-mode code and an emphasis code has is general knowledge in the spec (log 14, PRESUMED). -/
def Obligations.DecodedFieldsAreTheWordsBits : Prop :=
  ∀ (c : Config) (w : Word) (h : FrameHeader), decode c w = .header h →
    h.mpegVersion.code = w.extractLsb 20 19 ∧ h.layer.code = w.extractLsb 18 17 ∧
    h.protectionBit = w.extractLsb 16 16 ∧ (h.protectionEnabled = true ↔ w.getLsbD 16 = false) ∧
    h.bitrateIndex = w.extractLsb 15 12 ∧ h.sampleRateIndex = w.extractLsb 11 10 ∧
    c.readBr h.mpegVersion.vclass h.layer h.bitrateIndex.toNat = some h.bitrateKbps ∧
    c.readSr h.mpegVersion h.sampleRateIndex.toNat = some h.sampleRateHz ∧
    h.padding = w.getLsbD 9 ∧ h.privateBit = w.getLsbD 8 ∧
    (w.extractLsb 7 6 = 0b00#2 → h.channelMode = .stereo) ∧ (w.extractLsb 7 6 = 0b01#2 → h.channelMode = .jointStereo) ∧
    (w.extractLsb 7 6 = 0b10#2 → h.channelMode = .dualChannel) ∧ (w.extractLsb 7 6 = 0b11#2 → h.channelMode = .singleChannel) ∧
    h.modeExtension = w.extractLsb 5 4 ∧ h.copyrighted = w.getLsbD 3 ∧ h.original = w.getLsbD 2 ∧
    (w.extractLsb 1 0 = 0b00#2 → h.emphasis = .none) ∧ (w.extractLsb 1 0 = 0b01#2 → h.emphasis = .ms50x15) ∧
    (w.extractLsb 1 0 = 0b10#2 → h.emphasis = .reserved) ∧ (w.extractLsb 1 0 = 0b11#2 → h.emphasis = .ccitJ17)

/-- 41_decoder.md R116: chosen field values, made into a word, decode to themselves, with the ROM entries at the chosen
indices; and different words give different records. -/
def Obligations.FieldRoundTrip : Prop :=
  (∀ (c : Config) (v : Version) (l : Layer) (f : HeaderFields), configWf c = true → f.sri ≠ 0b11#2 →
    f.bri.toNat < c.rowLen v.vclass l →
    ∃ kbps hz, c.readBr v.vclass l f.bri.toNat = some kbps ∧ c.readSr v f.sri.toNat = some hz ∧
      decode c (0x7FF#11 ++ v.code ++ l.code ++ f.prot ++ f.bri ++ f.sri ++ f.pad ++ f.priv ++ f.mode ++ f.modext ++ f.copy
        ++ f.orig ++ f.emph) = .header (frameHeader v l f kbps hz)) ∧
  (∀ (c : Config) (w w' : Word) (h : FrameHeader), decode c w = .header h → decode c w' = .header h → w = w')

/-- 20_memory.md R41, R42: under a well-formed configuration no ROM is read outside its row. -/
def Obligations.RomsAreReadInsideTheirRows : Prop :=
  ∀ (c : Config) (w : Word), configWf c = true → decode c w ≠ .outsideRom

/-- 41_decoder.md R113: a decode depends only on the word and the configuration, whatever the registers held. -/
def Obligations.DecodeIsPure : Prop :=
  ∀ (s s' : State) (w : Word), configWf s.cfg = true → s'.cfg = s.cfg → s.lstate = .idle ∨ s.lstate = .done →
    s'.lstate = .idle ∨ s'.lstate = .done →
    ∃ t t', exec (.decode w) s = .next t ∧ exec (.decode w) s' = .next t' ∧ t'.raw = t.raw ∧ t'.status = t.status ∧
      t'.cause = t.cause ∧ t'.res = t.res ∧ t'.lstate = t.lstate ∧ t'.ncol = t.ncol

/-- Scenario A (95_test_vectors.md S-A; 42_framesize.md R141's example) under EVERY well-formed configuration. -/
def Obligations.ScenarioAForEveryConfiguration : Prop :=
  ∀ s : State, configWf s.cfg = true → s.lstate = .idle ∨ s.lstate = .done →
    exec (.decode 0xFFFB9064#32) s =
      .next { s with
        lstate := .done, ncol := 0#2, raw := 0xFFFB9064#32, status := .ok, cause := .none
        res := { ver := 0b11#2, lay := 0b01#2, prot := 1#1, crcEn := 0#1, bri := 9#4, sri := 0#2, pad := 0#1, priv := 0#1,
                 mode := 0b01#2, modext := 0b10#2, copy := 0#1, orig := 1#1, emph := 0b00#2, brKbps := 128,
                 srHz := 44100, slots := 104, bytes := 416 } }

/-! ## The header classes -/

/-- 41_decoder.md R125, R101; 42_framesize.md R141, R142: each of the nine classes that go on completes with OK when the two
remaining checks pass, and every register's new value is this. Under an ill-formed configuration the sample rate may be 0,
where R141 gives no quotient and the Lean one stands (log 20, DEDUCED); no step runs there. -/
def Obligations.HeaderClassCompletesOk : Prop :=
  ∀ (s : State) (v : Version) (l : Layer) (f : HeaderFields) (kbps hz : Nat), f.sri ≠ 0b11#2 →
    f.bri.toNat < s.cfg.rowLen v.vclass l → s.cfg.readBr v.vclass l f.bri.toNat = some kbps →
    s.cfg.readSr v f.sri.toNat = some hz →
    exec (classOf v l f) s =
      .next { s with
        raw := 0x7FF#11 ++ v.code ++ l.code ++ f.prot ++ f.bri ++ f.sri ++ f.pad ++ f.priv ++ f.mode ++ f.modext ++ f.copy
          ++ f.orig ++ f.emph
        lstate := .done, ncol := 0#2, status := .ok, cause := .none
        res := { ver := v.code, lay := l.code, prot := f.prot, crcEn := ~~~f.prot, bri := f.bri, sri := f.sri, pad := f.pad,
                 priv := f.priv, mode := f.mode, modext := f.modext, copy := f.copy, orig := f.orig, emph := f.emph,
                 brKbps := kbps, srHz := hz
                 slots := (match l with | .i => 12 | .ii => 36 | .iii => 36) * kbps * 1000 / hz + f.pad.toNat
                 bytes := 4 * ((match l with | .i => 12 | .ii => 36 | .iii => 36) * kbps * 1000 / hz + f.pad.toNat) } }

/-- 41_decoder.md R105, R108, R125: each of the nine classes completes with INVALID_HEADER on the reserved sample-rate index,
and otherwise on a bitrate index outside the row. -/
def Obligations.HeaderClassFailsItsIndices : Prop :=
  ∀ (s : State) (v : Version) (l : Layer) (f : HeaderFields), configWf s.cfg = true →
    ∀ c, (f.sri = 0b11#2 ∧ c = .sampleRate) ∨
        (f.sri ≠ 0b11#2 ∧ (f.bri = 15#4 ∨ f.bri = 14#4 ∧ (v.vclass, l) ∈ s.cfg.shortRows) ∧ c = .bitrate) →
      exec (classOf v l f) s =
        .next { s with
          raw := 0x7FF#11 ++ v.code ++ l.code ++ f.prot ++ f.bri ++ f.sri ++ f.pad ++ f.priv ++ f.mode ++ f.modext
            ++ f.copy ++ f.orig ++ f.emph
          lstate := .done, ncol := 0#2, status := .invalidHeader, cause := c, res := Results.zero }

/-- 41_decoder.md R102, R103, R104, R112: the five classes that never decode complete with INVALID_HEADER and their cause, RAW
the word and every result register 0. -/
def Obligations.ReservedClassesFail : Prop :=
  ∀ (s : State) (f : HeaderFields) (lay : BitVec 2) (w : Word),
    (∀ i, i = Instr.hdrV1LRes f ∨ i = Instr.hdrV2LRes f ∨ i = Instr.hdrV25LRes f → ∀ p, encode i = .header p →
      exec i s = .next { s with raw := p, lstate := .done, ncol := 0#2, status := .invalidHeader, cause := .layer,
                                res := Results.zero }) ∧
    (∀ p, encode (.hdrVRes lay f) = .header p →
      exec (.hdrVRes lay f) s = .next { s with raw := p, lstate := .done, ncol := 0#2, status := .invalidHeader,
                                               cause := .version, res := Results.zero }) ∧
    (w &&& 0xFFE00000#32 ≠ 0xFFE00000#32 →
      exec (.hdrSyncMismatch w) s = .next { s with raw := w, lstate := .done, ncol := 0#2, status := .invalidHeader,
                                                   cause := .sync, res := Results.zero })

/-- 30_encoding.md R72, 41_decoder.md R125: committing a word, by DECODE or by the fourth byte, is what its class means. -/
def Obligations.CommitIsTheHeaderClass : Prop :=
  (∀ (s : State) (w : Word), s.lstate = .idle ∨ s.lstate = .done → exec (.decode w) s = exec (decodeHeader w) s) ∧
  (∀ (s : State) (sEos : Bool) (b : Byte), s.lstate = .collect → s.ncol = 3#2 →
    exec (.byteFinal sEos b) s = exec (decodeHeader (BitVec.ofNat 32 (s.raw.toNat * 256 + b.toNat))) s.take)

/-- 30_encoding.md R72: every word falls into exactly one of the fourteen classes, the one the decoder gives. -/
def Obligations.HeaderClassesAreDisjointAndCover : Prop :=
  ∀ w : Word, headerRows.filter (·.admits w.toNat) = [(decodeHeader w).row]

/-! ## The frame-size unit -/

/-- 42_framesize.md R147, R141, R142: the two laws, for every successful decode. -/
def Obligations.FrameSizeLaws : Prop :=
  ∀ (c : Config) (w : Word) (h : FrameHeader), configWf c = true → decode c w = .header h →
    frameSizeBytes h = 4 * frameLengthSlots h ∧
    (w.extractLsb 18 17 = 0b11#2 →
      frameLengthSlots h = 12 * h.bitrateKbps * 1000 / h.sampleRateHz + (w.extractLsb 9 9).toNat) ∧
    (w.extractLsb 18 17 ≠ 0b11#2 →
      frameLengthSlots h = 36 * h.bitrateKbps * 1000 / h.sampleRateHz + (w.extractLsb 9 9).toNat) ∧
    h.sampleRateHz > 0

/-- 41_decoder.md R109: free format decodes in every row, with bitrate 0 and its padding as its size. -/
def Obligations.FreeFormat : Prop :=
  (∀ (c : Config) (v : Version) (l : Layer) (f : HeaderFields), configWf c = true → f.sri ≠ 0b11#2 → f.bri = 0#4 →
    ∃ h, decode c (headerWord 0x7FF#11 v.code l.code f) = .header h ∧ h.bitrateKbps = 0 ∧
      frameLengthSlots h = f.pad.toNat) ∧
  (∀ h : FrameHeader, h.bitrateKbps = 0 →
    frameLengthSlots h = (if h.padding then 1 else 0) ∧ frameSizeBytes h = (if h.padding then 4 else 0))

/-- 42_framesize.md R143: the product's bound, and that 25 bits hold product and quotient when W_BR is 9. -/
def Obligations.ProductBound : Prop :=
  ∀ (c : Config) (w : Word) (h : FrameHeader) (product : Nat), configWf c = true → decode c w = .header h →
    product = samplesPerFrameFactor h.layer * h.bitrateKbps * 1000 →
    product ≤ 36 * (2 ^ c.wBr - 1) * 1000 ∧ product / h.sampleRateHz ≤ product ∧
    (c.wBr = 9 → product ≤ 18396000 ∧ product % 2 ^ 25 = product ∧
      product / h.sampleRateHz % 2 ^ 25 = product / h.sampleRateHz)

/-- 42_framesize.md R146: the ranges with the default ROMs (whose contents are general knowledge, log 13). -/
def Obligations.DefaultRomRanges : Prop :=
  (∀ (w : Word) (h : FrameHeader), decode Config.default w = .header h →
    frameLengthSlots h ≤ 649 ∧ frameSizeBytes h ≤ 2596 ∧ frameSizeBytes h % 4 = 0 ∧
    (h.mpegVersion = .v1 → frameLengthSlots h ≤ 433) ∧ (h.bitrateIndex ≠ 0#4 → 8 ≤ frameLengthSlots h)) ∧
  (∃ h, decode Config.default 0xFFE5DA00#32 = .header h ∧ frameLengthSlots h = 649 ∧ frameSizeBytes h = 2596) ∧
  (∃ h, decode Config.default 0xFFE3DA00#32 = .header h ∧ frameLengthSlots h = 649 ∧ frameSizeBytes h = 2596) ∧
  (∃ h, decode Config.default 0xFFFDEA00#32 = .header h ∧ frameLengthSlots h = 433) ∧
  (∃ h, decode Config.default 0xFFFF1400#32 = .header h ∧ frameLengthSlots h = 8)

/-! ## Rules of the whole machine -/

/-- 40_locator.md R93: COUNT changes only by a take, which adds one modulo 2^W_COUNT, and by START and reset. -/
def Obligations.CountChangesOnlyByTakes : Prop :=
  ∀ (i : Instr) (s t : State), exec i s = .next t →
    t.count = match i with
      | .byteLead _ | .byteSkip _ _ | .byteCollect _ _ | .byteFinal _ _ =>
        if i.appliesIn s.lstate s.ncol = true ∧ i.wf = true then (s.count + 1) % 2 ^ s.cfg.wCount else s.count
      | .start _ | .reset => 0
      | _ => s.count

/-- 20_memory.md R43: no step changes the ROMs or any other part of the configuration. -/
def Obligations.RomsNeverChange : Prop :=
  ∀ s t : State, step s = .next t → t.cfg = s.cfg

/-- 60_exceptions.md R166: in DONE only START, DECODE and reset change a register. -/
def Obligations.OnlyStartDecodeResetActInDone : Prop :=
  ∀ (s t : State), s.lstate = .done → step s = .next t →
    SameRegisters s t ∨ ∃ e rest, s.inputs = e :: rest ∧
      ((∃ w, select s e = some (.start w) ∧ t.lstate = .scan) ∨ (∃ w, select s e = some (.decode w) ∧ t.lstate = .done) ∨
        (select s e = some .reset ∧ t.lstate = .idle))

/-- 60_exceptions.md R165: an event that enters DONE without committing a word leaves RAW and COUNT as they were; every
entry clears NCOL, sets STATUS, and zeroes the results unless STATUS is OK. -/
def Obligations.CompletionIsPrecise : Prop :=
  ∀ (s t : State) (e : Edge) (rest : List Edge), s.inputs = e :: rest → s.lstate ≠ .done → step s = .next t →
    t.lstate = .done →
    t.ncol = 0#2 ∧ t.status ≠ .none ∧ (t.status ≠ .ok → t.res = Results.zero) ∧
    ((t.status = .ok ∨ t.status = .invalidHeader) ∨ (t.raw = s.raw ∧ t.count = s.count)) ∧
    (takesByte (select s e) = true → ∃ sEos b, select s e = some (.byteFinal sEos b))

/-- 10_state.md R33: nothing in the block reads STATUS, CAUSE or the results: with other values there, an event does the
same to every other register, and leaves the same in them or leaves them alone. -/
def Obligations.StatusIsNeverRead : Prop :=
  ∀ (i : Instr) (s t : State) (st : Status) (c : Cause) (r : Results), exec i s = .next t →
    ∃ t', exec i { s with status := st, cause := c, res := r } = .next t' ∧ t'.cfg = t.cfg ∧ t'.lstate = t.lstate ∧
      t'.ncol = t.ncol ∧ t'.raw = t.raw ∧ t'.count = t.count ∧ t'.src = t.src ∧ t'.inputs = t.inputs ∧
      ((t'.status = t.status ∧ t'.cause = t.cause ∧ t'.res = t.res) ∨
        (t'.status = st ∧ t'.cause = c ∧ t'.res = r ∧ t.status = s.status ∧ t.cause = s.cause ∧ t.res = s.res))

/-- 10_state.md R37, with R26, R27 and 60_exceptions.md R161, R162: every step keeps the invariant (NCOL with LSTATE, STATUS
with DONE, CAUSE with STATUS, RAW the bytes taken, the results the decode of RAW or 0, every register in its width). -/
def Obligations.EveryStepKeepsTheInvariant : Prop :=
  ∀ s t : State, Inv s → step s = .next t → Inv t

/-- 10_state.md R35, R37: the state after reset meets the invariant. -/
def Obligations.ResetMeetsTheInvariant : Prop := Inv State.reset

/-! ## Programs -/

/-- 30_encoding.md R77: a line whose event the state accepts takes a step, and leaves the next line no duty to break; any
other line is refused, and so is every program that reaches one. -/
def Obligations.AcceptedLinesRun : Prop :=
  (∀ (s : State) (l : Line), configWf s.cfg = true → Quiescent s → l.accepted s = true →
    ∃ t, runLine s l = .next t ∧ t.cfg = s.cfg ∧ t.inputs = s.inputs ∧ Quiescent t) ∧
  (∀ (s t : State) (ls : List Line) (l : Line) (rest : List Line), runProgram s ls = .next t → l.accepted t = false →
    runProgram s (ls ++ l :: rest) = .refused .illFormedProgram) ∧
  Quiescent State.reset

/-! ## Encodings -/

/-- What encodes a well-formed event decodes to it, every operand bit kept, in every control state in which its row applies
(30_encoding.md R60, R73, R74). -/
def Obligations.DecodeOfEncode : Prop :=
  ∀ (i : Instr) (l : LState) (n : BitVec 2), i.wf = true → i.appliesIn l n = true → decodeAt l n (encode i) = .ok i

/-- What decodes to an event is what encodes it, and the event is well-formed and its row applies. -/
def Obligations.EncodeOfDecode : Prop :=
  ∀ (p : PortWord) (l : LState) (n : BitVec 2) (i : Instr), decodeAt l n p = .ok i →
    encode i = p ∧ i.wf = true ∧ i.appliesIn l n = true

/-- Words written out from 30_encoding.md R60, R72, R74 and the table's stream format. -/
def Obligations.EncodedWordsDecode : Prop :=
  decodeHeader 0b11111111111_11_01_1_1001_00_0_0_01_10_0_1_00#32 =
    .hdrV1L3 { prot := 1, bri := 9, sri := 0, pad := 0, priv := 0, mode := 1, modext := 2, copy := 0, orig := 1, emph := 0 } ∧
  decodeHeader 0b11111111111_10_11_0_0001_10_1_0_00_00_0_0_00#32 =
    .hdrV2L1 { prot := 0, bri := 1, sri := 2, pad := 1, priv := 0, mode := 0, modext := 0, copy := 0, orig := 0, emph := 0 } ∧
  decodeCommand (0b10#2 ++ 0xFFFB9064#32) = .decode 0xFFFB9064#32 ∧
  decodeAt .scan 0#2 (.stream 0b0_1_0_11111111#11) = .ok (.byteLead false) ∧
  decodeAt .collect 3#2 (.stream 0b0_1_1_01100100#11) = .ok (.byteFinal true 0x64#8) ∧
  decodeAt .scan 0#2 (.stream 0b1_0_0_00000000#11) = .ok (.sErr false false 0#8) ∧
  decodeAt .done 0#2 (.rst 1#1) = .ok .reset
end

