-- ==== Sys2Proof/Laws/Words.lean ====
section
/-! SUPPORT. The bit fields of the header word, and that each encoding keeps its parts. -/

namespace Sys2Proof

theorem toNat_append_add {m n : Nat} (x : BitVec m) (y : BitVec n) : (x ++ y).toNat = x.toNat * 2 ^ n + y.toNat := by
  rw [BitVec.toNat_append, Nat.shiftLeft_eq_mul_pow, Nat.mul_comm, ← Nat.two_pow_add_eq_or_of_lt y.isLt]

theorem toNat_field (w : Word) (lo n : Nat) : (field w lo n).toNat = w.toNat / 2 ^ lo % 2 ^ n := by
  simp [field, BitVec.extractLsb'_toNat, Nat.shiftRight_eq_div_pow]

/-- Two neighbouring fields make the wider field. -/
theorem field_append (w : Word) (lo m n : Nat) : field w (lo + n) m ++ field w lo n = field w lo (m + n) := by
  apply BitVec.eq_of_toNat_eq
  rw [toNat_append_add, toNat_field, toNat_field, toNat_field, Nat.pow_add 2 lo n, ← Nat.div_div_eq_div_mul,
    Nat.add_comm m n, Nat.pow_add 2 n m]
  generalize w.toNat / 2 ^ lo = y
  rw [Nat.mod_mul, Nat.add_comm, Nat.mul_comm]

theorem field_whole (w : Word) : field w 0 32 = w := by
  apply BitVec.eq_of_toNat_eq
  rw [toNat_field]
  have := w.isLt
  omega

/-- Every header word is the word of its fields: no bit is lost (30_encoding.md R60). -/
theorem headerWord_fields (w : Word) : headerWord (syncField w) (versionCode w) (layerCode w) (headerFields w) = w := by
  refine Eq.trans ?_ (field_whole w)
  simp only [headerWord, syncField, versionCode, layerCode, headerFields]
  rw [field_append w 19 11 2, field_append w 17 13 2, field_append w 16 15 1, field_append w 12 16 4,
    field_append w 10 20 2, field_append w 9 22 1, field_append w 8 23 1, field_append w 6 24 2, field_append w 4 26 2,
    field_append w 3 28 1, field_append w 2 29 1, field_append w 0 30 2]

theorem toNat_headerWord (s : BitVec 11) (v l : BitVec 2) (f : HeaderFields) :
    (headerWord s v l f).toNat = s.toNat * 2 ^ 21 + v.toNat * 2 ^ 19 + l.toNat * 2 ^ 17 + f.prot.toNat * 2 ^ 16
      + f.bri.toNat * 2 ^ 12 + f.sri.toNat * 2 ^ 10 + f.pad.toNat * 2 ^ 9 + f.priv.toNat * 2 ^ 8 + f.mode.toNat * 2 ^ 6
      + f.modext.toNat * 2 ^ 4 + f.copy.toNat * 2 ^ 3 + f.orig.toNat * 2 ^ 2 + f.emph.toNat := by
  simp only [headerWord, toNat_append_add]
  omega

/-- The bits below the layer code stay below it. -/
theorem toNat_headerWord_split (s : BitVec 11) (v l : BitVec 2) (f : HeaderFields) :
    ∃ r < 2 ^ 17, (headerWord s v l f).toNat = s.toNat * 2 ^ 21 + v.toNat * 2 ^ 19 + l.toNat * 2 ^ 17 + r := by
  refine ⟨f.prot.toNat * 2 ^ 16 + f.bri.toNat * 2 ^ 12 + f.sri.toNat * 2 ^ 10 + f.pad.toNat * 2 ^ 9 + f.priv.toNat * 2 ^ 8
    + f.mode.toNat * 2 ^ 6 + f.modext.toNat * 2 ^ 4 + f.copy.toNat * 2 ^ 3 + f.orig.toNat * 2 ^ 2 + f.emph.toNat, ?_, ?_⟩
  · have := f.prot.isLt; have := f.bri.isLt; have := f.sri.isLt; have := f.pad.isLt; have := f.priv.isLt
    have := f.mode.isLt; have := f.modext.isLt; have := f.copy.isLt; have := f.orig.isLt; have := f.emph.isLt
    omega
  · rw [toNat_headerWord]; omega

@[simp] theorem syncField_headerWord (s : BitVec 11) (v l : BitVec 2) (f : HeaderFields) :
    syncField (headerWord s v l f) = s := by
  obtain ⟨r, hr, h⟩ := toNat_headerWord_split s v l f
  apply BitVec.eq_of_toNat_eq
  rw [syncField, toNat_field, h]
  have := s.isLt; have := v.isLt; have := l.isLt
  omega

@[simp] theorem versionCode_headerWord (s : BitVec 11) (v l : BitVec 2) (f : HeaderFields) :
    versionCode (headerWord s v l f) = v := by
  obtain ⟨r, hr, h⟩ := toNat_headerWord_split s v l f
  apply BitVec.eq_of_toNat_eq
  rw [versionCode, toNat_field, h]
  have := s.isLt; have := v.isLt; have := l.isLt
  omega

@[simp] theorem layerCode_headerWord (s : BitVec 11) (v l : BitVec 2) (f : HeaderFields) :
    layerCode (headerWord s v l f) = l := by
  obtain ⟨r, hr, h⟩ := toNat_headerWord_split s v l f
  apply BitVec.eq_of_toNat_eq
  rw [layerCode, toNat_field, h]
  have := s.isLt; have := v.isLt; have := l.isLt
  omega

@[simp] theorem headerFields_headerWord (s : BitVec 11) (v l : BitVec 2) (f : HeaderFields) :
    headerFields (headerWord s v l f) = f := by
  have hp := f.prot.isLt; have hb := f.bri.isLt; have hs := f.sri.isLt; have hd := f.pad.isLt; have hv := f.priv.isLt
  have hm := f.mode.isLt; have hx := f.modext.isLt; have hc := f.copy.isLt; have ho := f.orig.isLt; have he := f.emph.isLt
  have key : ∀ (lo n : Nat) (x : BitVec n), (headerWord s v l f).toNat / 2 ^ lo % 2 ^ n = x.toNat →
      field (headerWord s v l f) lo n = x := fun lo n x h => BitVec.eq_of_toNat_eq ((toNat_field _ lo n).trans h)
  have hw := toNat_headerWord s v l f
  obtain ⟨prot, bri, sri, pad, priv, mode, modext, copy, orig, emph⟩ := f
  simp only [headerFields, HeaderFields.mk.injEq]
  simp only at hp hb hs hd hv hm hx hc ho he hw
  refine ⟨key _ _ _ ?_, key _ _ _ ?_, key _ _ _ ?_, key _ _ _ ?_, key _ _ _ ?_, key _ _ _ ?_, key _ _ _ ?_, key _ _ _ ?_,
    key _ _ _ ?_, key _ _ _ ?_⟩ <;> rw [hw] <;> omega

theorem bits_ofBits : ∀ v : BitVec 11, (StreamVec.ofBits v).bits = v := by decide +kernel

theorem ofBits_bits (v : StreamVec) : StreamVec.ofBits v.bits = v := by
  obtain ⟨a, b, c, d⟩ := v
  simp only [StreamVec.ofBits, StreamVec.bits, StreamVec.mk.injEq]
  refine ⟨?_, ?_, ?_, ?_⟩
  all_goals revert d; cases a <;> cases b <;> cases c <;> decide +kernel

theorem toNat_command (op : BitVec 2) (w : Word) : (op ++ w : BitVec 34).toNat = op.toNat * 2 ^ 32 + w.toNat :=
  toNat_append_add op w

@[simp] theorem op_command (op : BitVec 2) (w : Word) : (op ++ w : BitVec 34).extractLsb' 32 2 = op := by
  apply BitVec.eq_of_toNat_eq
  rw [BitVec.extractLsb'_toNat, toNat_command, Nat.shiftRight_eq_div_pow]
  have := op.isLt; have := w.isLt
  omega

@[simp] theorem word_command (op : BitVec 2) (w : Word) : (op ++ w : BitVec 34).extractLsb' 0 32 = w := by
  apply BitVec.eq_of_toNat_eq
  rw [BitVec.extractLsb'_toNat, toNat_command, Nat.shiftRight_eq_div_pow]
  have := op.isLt; have := w.isLt
  omega

theorem command_parts (v : BitVec 34) : (v.extractLsb' 32 2 ++ v.extractLsb' 0 32 : BitVec 34) = v := by
  apply BitVec.eq_of_toNat_eq
  rw [toNat_command, BitVec.extractLsb'_toNat, BitVec.extractLsb'_toNat, Nat.shiftRight_eq_div_pow, Nat.shiftRight_eq_div_pow]
  have := v.isLt
  omega

/-! ## Codes -/

@[simp] theorem versionOfCode_code (v : Version) : versionOfCode v.code = some v := by cases v <;> rfl
@[simp] theorem layerOfCode_code (l : Layer) : layerOfCode l.code = some l := by cases l <;> rfl

theorem code_of_versionOfCode : ∀ {c : BitVec 2} {v : Version}, versionOfCode c = some v → v.code = c := by
  intro c v; revert c; cases v <;> decide
theorem code_of_layerOfCode : ∀ {c : BitVec 2} {l : Layer}, layerOfCode c = some l → l.code = c := by
  intro c l; revert c; cases l <;> decide
theorem versionOfCode_none : ∀ c : BitVec 2, versionOfCode c = none ↔ c = 0b01#2 := by decide
theorem layerOfCode_none : ∀ c : BitVec 2, layerOfCode c = none ↔ c = 0b00#2 := by decide

/-! ## The header rows' masks -/

/-- Masking off the low `k` bits. -/
theorem and_highMask (v k n : Nat) (h : v < 2 ^ (k + n)) : v &&& (2 ^ n - 1) * 2 ^ k = v / 2 ^ k * 2 ^ k := by
  rw [← Nat.shiftLeft_eq (2 ^ n - 1) k, ← Nat.shiftLeft_eq (v / 2 ^ k) k, ← Nat.shiftRight_eq_div_pow]
  apply Nat.eq_of_testBit_eq
  intro i
  simp only [Nat.testBit_and, Nat.testBit_shiftLeft, Nat.testBit_shiftRight, Nat.testBit_two_pow_sub_one]
  by_cases hk : k ≤ i
  · by_cases hi : i - k < n
    · simp [hk, hi, Nat.add_sub_cancel' hk]
    · have hz : v.testBit i = false := Nat.testBit_lt_two_pow (Nat.lt_of_lt_of_le h (Nat.pow_le_pow_right (by omega) (by omega)))
      simp [hk, hi, hz, Nat.add_sub_cancel' hk]
  · simp [hk]

theorem and_syncMask (w : Word) : w.toNat &&& 0xFFE00000 = w.toNat / 2 ^ 21 * 2 ^ 21 :=
  and_highMask w.toNat 21 11 w.isLt
theorem and_versionMask (w : Word) : w.toNat &&& 0xFFF80000 = w.toNat / 2 ^ 19 * 2 ^ 19 :=
  and_highMask w.toNat 19 13 w.isLt
theorem and_layerMask (w : Word) : w.toNat &&& 0xFFFE0000 = w.toNat / 2 ^ 17 * 2 ^ 17 :=
  and_highMask w.toNat 17 15 w.isLt

/-- The sync test as a mask (30_encoding.md R62). -/
theorem sync_mask (w : Word) : w &&& 0xFFE00000#32 = 0xFFE00000#32 ↔ syncField w = syncPattern := by
  rw [← BitVec.toNat_inj, ← BitVec.toNat_inj, BitVec.toNat_and, syncField, toNat_field]
  show w.toNat &&& 0xFFE00000 = 0xFFE00000 ↔ w.toNat / 2 ^ 21 % 2 ^ 11 = 0x7FF
  rw [and_syncMask]
  have := w.isLt
  omega

end Sys2Proof
end

