-- ==== Sys2Proof/Laws/Decoder.lean ====
section
/-! SUPPORT. What a well-formed configuration gives, and everything the decoder and the commit can answer. -/

namespace Sys2Proof.Machine

/-! ## A well-formed configuration -/

theorem mem_allVersions (v : Version) : v ∈ allVersions := by cases v <;> decide
theorem mem_allClasses (k : VClass) : k ∈ allClasses := by cases k <;> decide
theorem mem_allLayers (l : Layer) : l ∈ allLayers := by cases l <;> decide

theorem configWf_parts {c : Config} (h : configWf c = true) :
    (∀ k l, brRowWf c k l = true) ∧ (∀ v, srRowWf c v = true) ∧ c.brRom.c1iii[9]? = some 128 ∧ c.srRom.v1[0]? = some 44100
      ∧ ∀ v l, sizesFit c v l = true := by
  simp only [configWf, Bool.and_eq_true, List.all_eq_true, beq_iff_eq] at h
  obtain ⟨⟨⟨⟨h1, h2⟩, h3⟩, h4⟩, h5⟩ := h
  exact ⟨fun k l => h1 k (mem_allClasses k) l (mem_allLayers l), fun v => h2 v (mem_allVersions v), h3, h4,
    fun v l => h5 v (mem_allVersions v) l (mem_allLayers l)⟩

theorem brRow_length {c : Config} (h : configWf c = true) (k : VClass) (l : Layer) :
    (c.brRom.row k l).length = c.rowLen k l := by
  have := (configWf_parts h).1 k l
  simp only [brRowWf, Bool.and_eq_true, beq_iff_eq] at this
  exact this.1.1

theorem brRow_lt {c : Config} (h : configWf c = true) {k : VClass} {l : Layer} {x : Nat} (hx : x ∈ c.brRom.row k l) :
    x < 2 ^ c.wBr := by
  have := (configWf_parts h).1 k l
  simp only [brRowWf, Bool.and_eq_true, List.all_eq_true, decide_eq_true_eq] at this
  exact this.1.2 x hx

theorem readBr_zero {c : Config} (h : configWf c = true) (k : VClass) (l : Layer) : c.readBr k l 0 = some 0 := by
  have := (configWf_parts h).1 k l
  simp only [brRowWf, Bool.and_eq_true, beq_iff_eq] at this
  exact this.2

theorem srRow_length {c : Config} (h : configWf c = true) (v : Version) : (c.srRom.row v).length = 3 := by
  have := (configWf_parts h).2.1 v
  simp only [srRowWf, Bool.and_eq_true, beq_iff_eq] at this
  exact this.1

theorem srRow_bounds {c : Config} (h : configWf c = true) {v : Version} {x : Nat} (hx : x ∈ c.srRom.row v) :
    x ≠ 0 ∧ x < 2 ^ c.wSr := by
  have := (configWf_parts h).2.1 v
  simp only [srRowWf, Bool.and_eq_true, List.all_eq_true, bne_iff_ne, decide_eq_true_eq] at this
  exact this.2 x hx

theorem sizes_lt {c : Config} (h : configWf c = true) {v : Version} {l : Layer} {hz kbps : Nat} (hh : hz ∈ c.srRom.row v)
    (hk : kbps ∈ c.brRom.row v.vclass l) (p : Bool) :
    slotsOf l kbps hz p < 2 ^ c.wSlots ∧ 4 * slotsOf l kbps hz p < 2 ^ c.wBytes := by
  have := (configWf_parts h).2.2.2.2 v l
  simp only [sizesFit, List.all_eq_true, Bool.and_eq_true, decide_eq_true_eq] at this
  have h1 := this hz hh kbps hk
  have hp : slotsOf l kbps hz p ≤ slotsOf l kbps hz true := by
    simp only [slotsOf]; cases p <;> simp
  omega

theorem rowLen_cases (c : Config) (k : VClass) (l : Layer) : c.rowLen k l = 14 ∨ c.rowLen k l = 15 := by
  unfold Config.rowLen; split <;> simp

/-- Within the row, a bitrate read answers an entry of the row (20_memory.md R41). -/
theorem readBr_some {c : Config} (h : configWf c = true) {k : VClass} {l : Layer} {i : Nat} (hi : i < c.rowLen k l) :
    ∃ x, c.readBr k l i = some x ∧ x ∈ c.brRom.row k l := by
  rw [← brRow_length h] at hi
  exact ⟨_, List.getElem?_eq_getElem hi, List.getElem_mem hi⟩

/-- A sample-rate read below index 3 answers an entry of the row (20_memory.md R42). -/
theorem readSr_some {c : Config} (h : configWf c = true) {v : Version} {i : Nat} (hi : i < 3) :
    ∃ x, c.readSr v i = some x ∧ x ∈ c.srRom.row v := by
  rw [← srRow_length h v] at hi
  exact ⟨_, List.getElem?_eq_getElem hi, List.getElem_mem hi⟩

/-! ## decodeRest and decode -/

theorem sri_lt_three {x : BitVec 2} (h : x ≠ 0b11#2) : x.toNat < 3 := by
  revert x; decide

/-- Everything `decodeRest` can answer under a well-formed configuration. -/
theorem decodeRest_cases {c : Config} (h : configWf c = true) (v : Version) (l : Layer) (f : HeaderFields) :
    (f.sri = 0b11#2 ∧ decodeRest c v l f = .invalid .sampleRate) ∨
    (f.sri ≠ 0b11#2 ∧ c.rowLen v.vclass l ≤ f.bri.toNat ∧ decodeRest c v l f = .invalid .bitrate) ∨
    (f.sri ≠ 0b11#2 ∧ f.bri.toNat < c.rowLen v.vclass l ∧ ∃ kbps hz, c.readBr v.vclass l f.bri.toNat = some kbps ∧
      c.readSr v f.sri.toNat = some hz ∧ kbps ∈ c.brRom.row v.vclass l ∧ hz ∈ c.srRom.row v ∧
      decodeRest c v l f = .header (frameHeader v l f kbps hz)) := by
  unfold decodeRest
  by_cases hs : f.sri = 0b11#2
  · simp [hs]
  · obtain ⟨hz, hr, hm⟩ := readSr_some h (v := v) (sri_lt_three hs)
    by_cases hb : c.rowLen v.vclass l ≤ f.bri.toNat
    · simp [hs, hr, hb]
    · obtain ⟨kbps, hk, hkm⟩ := readBr_some h (Nat.lt_of_not_le hb)
      simp [hs, hr, hb, hk, hkm, hm, Nat.lt_of_not_le hb]

/-- `decode` of a word is settled by its sync bits, version code and layer code, and then by `decodeRest` (R101). -/
theorem decode_cases (c : Config) (w : Word) :
    (syncField w ≠ syncPattern ∧ decode c w = .invalid .sync) ∨
    (syncField w = syncPattern ∧ versionCode w = 0b01#2 ∧ decode c w = .invalid .version) ∨
    (syncField w = syncPattern ∧ versionCode w ≠ 0b01#2 ∧ layerCode w = 0b00#2 ∧ decode c w = .invalid .layer) ∨
    (∃ v l, syncField w = syncPattern ∧ versionCode w = v.code ∧ layerCode w = l.code ∧
      w = headerWord syncPattern v.code l.code (headerFields w) ∧ decode c w = decodeRest c v l (headerFields w)) := by
  unfold decode
  by_cases hs : syncField w = syncPattern
  · rw [if_pos hs]
    cases hv : versionOfCode (versionCode w) with
    | none => exact .inr (.inl ⟨hs, (versionOfCode_none _).1 hv, rfl⟩)
    | some v =>
      have hv' : versionCode w ≠ 0b01#2 := fun e => by rw [(versionOfCode_none _).2 e] at hv; cases hv
      cases hl : layerOfCode (layerCode w) with
      | none => exact .inr (.inr (.inl ⟨hs, hv', (layerOfCode_none _).1 hl, rfl⟩))
      | some l =>
        have ev := code_of_versionOfCode hv
        have el := code_of_layerOfCode hl
        refine .inr (.inr (.inr ⟨v, l, hs, ev.symm, el.symm, ?_, rfl⟩))
        rw [ev, el, ← hs, headerWord_fields]
  · rw [if_neg hs]; exact .inl ⟨hs, rfl⟩

/-- The ROMs are never read outside their rows (20_memory.md R41, R42). -/
theorem decodeRest_ne_outsideRom {c : Config} (h : configWf c = true) (v : Version) (l : Layer) (f : HeaderFields) :
    decodeRest c v l f ≠ .outsideRom := by
  rcases decodeRest_cases h v l f with ⟨_, e⟩ | ⟨_, _, e⟩ | ⟨_, _, _, _, _, _, _, _, e⟩ <;> rw [e] <;> simp

/-- What a successful `decodeRest` read and made (41_decoder.md R101). -/
theorem decodeRest_header {c : Config} {v : Version} {l : Layer} {f : HeaderFields} {h : FrameHeader}
    (e : decodeRest c v l f = .header h) :
    ∃ kbps hz, c.readBr v.vclass l f.bri.toNat = some kbps ∧ c.readSr v f.sri.toNat = some hz ∧
      h = frameHeader v l f kbps hz ∧ f.sri ≠ 0b11#2 ∧ f.bri.toNat < c.rowLen v.vclass l := by
  unfold decodeRest at e
  split at e
  · cases e
  · split at e
    · cases e
    · split at e
      · cases e
      · split at e
        · cases e
        · cases e
          rename_i hs _ _ hsr hb _ _ hbr
          exact ⟨_, _, hbr, hsr, rfl, hs, Nat.lt_of_not_le hb⟩

/-- What a successful `decode` says of its word and its record. -/
theorem decode_header {c : Config} {w : Word} {h : FrameHeader} (e : decode c w = .header h) :
    ∃ v l kbps hz, w = headerWord syncPattern v.code l.code (headerFields w) ∧ layerCode w = l.code ∧
      c.readBr v.vclass l (headerFields w).bri.toNat = some kbps ∧ c.readSr v (headerFields w).sri.toNat = some hz ∧
      h = frameHeader v l (headerFields w) kbps hz ∧ (headerFields w).sri ≠ 0b11#2 ∧
      (headerFields w).bri.toNat < c.rowLen v.vclass l := by
  rcases decode_cases c w with ⟨_, e'⟩ | ⟨_, _, e'⟩ | ⟨_, _, _, e'⟩ | ⟨v, l, _, _, hl, hw, e'⟩ <;> rw [e'] at e
  · cases e
  · cases e
  · cases e
  · obtain ⟨kbps, hz, h1, h2, h3⟩ := decodeRest_header e
    exact ⟨v, l, kbps, hz, hw, hl, h1, h2, h3⟩

theorem readBr_mem {c : Config} {k : VClass} {l : Layer} {i x : Nat} (h : c.readBr k l i = some x) : x ∈ c.brRom.row k l :=
  List.mem_of_getElem? h
theorem readSr_mem {c : Config} {v : Version} {i x : Nat} (h : c.readSr v i = some x) : x ∈ c.srRom.row v :=
  List.mem_of_getElem? h

/-- The word of a class that is not reserved decodes as its class says. -/
theorem decode_headerWord (c : Config) (v : Version) (l : Layer) (f : HeaderFields) :
    decode c (headerWord syncPattern v.code l.code f) = decodeRest c v l f := by simp [decode]

/-- `results` of a word made of its fields. -/
theorem results_headerWord (v : Version) (l : Layer) (f : HeaderFields) (h : FrameHeader) :
    results (headerWord syncPattern v.code l.code f) h =
      { ver := v.code, lay := l.code, prot := f.prot, crcEn := ~~~f.prot, bri := f.bri, sri := f.sri, pad := f.pad,
        priv := f.priv, mode := f.mode, modext := f.modext, copy := f.copy, orig := f.orig, emph := f.emph,
        brKbps := h.bitrateKbps, srHz := h.sampleRateHz, slots := frameLengthSlots h, bytes := frameSizeBytes h } := by
  have h1 := versionCode_headerWord syncPattern v.code l.code f
  have h2 := layerCode_headerWord syncPattern v.code l.code f
  have h3 := headerFields_headerWord syncPattern v.code l.code f
  simp only [versionCode, layerCode] at h1 h2
  generalize headerWord syncPattern v.code l.code f = w at *
  subst h3
  simp only [results, h1, h2, headerFields]

/-- The frame length of a record made from fields, its padding as a number (42_framesize.md R141). -/
theorem frameLengthSlots_frameHeader (v : Version) (l : Layer) (f : HeaderFields) (kbps hz : Nat) :
    frameLengthSlots (frameHeader v l f kbps hz) = samplesPerFrameFactor l * kbps * 1000 / hz + f.pad.toNat := by
  have : ∀ p : BitVec 1, (if decide (p = 1#1) = true then 1 else 0) = p.toNat := by decide
  exact congrArg (_ + ·) (this f.pad)

/-! ## The assembly register -/

/-- Shifting a byte in, as a number modulo 2^32 (40_locator.md R86, R87). -/
theorem shiftIn_eq (r : Word) (b : Byte) : shiftIn r b = BitVec.ofNat 32 (r.toNat * 256 + b.toNat) := by
  apply BitVec.eq_of_toNat_eq
  have hb := b.isLt
  rw [shiftIn, BitVec.toNat_or, BitVec.toNat_shiftLeft, BitVec.toNat_setWidth, BitVec.toNat_ofNat, Nat.shiftLeft_eq,
    Nat.mod_eq_of_lt (show b.toNat < 2 ^ 32 by omega),
    show r.toNat * 2 ^ 8 % 2 ^ 32 = 2 ^ 8 * (r.toNat % 2 ^ 24) by omega, ← Nat.two_pow_add_eq_or_of_lt hb]
  omega

/-! ## The commit -/

/-- Everything a commit can answer when it answers a next state. -/
theorem commitDecoded_next {w : Word} {d : Decoded} {s t : State} (h : commitDecoded w d s = .next t) :
    (∃ hd, d = .header hd ∧ t = (s.setRaw w).complete .ok .none (results w hd)) ∨
    (∃ c, d = .invalid c ∧ t = (s.setRaw w).complete .invalidHeader c Results.zero) := by
  cases d with
  | header hd => exact .inl ⟨hd, rfl, (Host.Outcome.next.inj h).symm⟩
  | invalid c => exact .inr ⟨c, rfl, (Host.Outcome.next.inj h).symm⟩
  | outsideRom => nomatch h

theorem commitDecoded_answers {w : Word} {d : Decoded} (s : State) (h : d ≠ .outsideRom) :
    ∃ t, commitDecoded w d s = .next t := by
  cases d with
  | header hd => exact ⟨_, rfl⟩
  | invalid c => exact ⟨_, rfl⟩
  | outsideRom => exact absurd rfl h

end Sys2Proof.Machine
end

