-- ==== Sys2Proof/Laws/State.lean ====
section
/-! SUPPORT. The fields of each update of State, one lemma per field (Machine/Ops.lean, Machine/Select.lean). -/

namespace Sys2Proof.Machine

/-! ## take -/

@[simp] theorem State.take_cfg (s : State) : (s.take).cfg = s.cfg := rfl
@[simp] theorem State.take_lstate (s : State) : (s.take).lstate = s.lstate := rfl
@[simp] theorem State.take_ncol (s : State) : (s.take).ncol = s.ncol := rfl
@[simp] theorem State.take_raw (s : State) : (s.take).raw = s.raw := rfl
@[simp] theorem State.take_count (s : State) : (s.take).count = (s.count + 1) % 2 ^ s.cfg.wCount := rfl
@[simp] theorem State.take_status (s : State) : (s.take).status = s.status := rfl
@[simp] theorem State.take_cause (s : State) : (s.take).cause = s.cause := rfl
@[simp] theorem State.take_res (s : State) : (s.take).res = s.res := rfl
@[simp] theorem State.take_src (s : State) : (s.take).src = s.src := rfl
@[simp] theorem State.take_inputs (s : State) : (s.take).inputs = s.inputs := rfl

/-! ## setRaw -/

@[simp] theorem State.setRaw_cfg (s : State) (w : Word) : (s.setRaw w).cfg = s.cfg := rfl
@[simp] theorem State.setRaw_lstate (s : State) (w : Word) : (s.setRaw w).lstate = s.lstate := rfl
@[simp] theorem State.setRaw_ncol (s : State) (w : Word) : (s.setRaw w).ncol = s.ncol := rfl
@[simp] theorem State.setRaw_raw (s : State) (w : Word) : (s.setRaw w).raw = w := rfl
@[simp] theorem State.setRaw_count (s : State) (w : Word) : (s.setRaw w).count = s.count := rfl
@[simp] theorem State.setRaw_status (s : State) (w : Word) : (s.setRaw w).status = s.status := rfl
@[simp] theorem State.setRaw_cause (s : State) (w : Word) : (s.setRaw w).cause = s.cause := rfl
@[simp] theorem State.setRaw_res (s : State) (w : Word) : (s.setRaw w).res = s.res := rfl
@[simp] theorem State.setRaw_src (s : State) (w : Word) : (s.setRaw w).src = s.src := rfl
@[simp] theorem State.setRaw_inputs (s : State) (w : Word) : (s.setRaw w).inputs = s.inputs := rfl

/-! ## complete -/

@[simp] theorem State.complete_cfg (s : State) (st : Status) (c : Cause) (r : Results) : (s.complete st c r).cfg = s.cfg := rfl
@[simp] theorem State.complete_lstate (s : State) (st : Status) (c : Cause) (r : Results) : (s.complete st c r).lstate = .done := rfl
@[simp] theorem State.complete_ncol (s : State) (st : Status) (c : Cause) (r : Results) : (s.complete st c r).ncol = 0#2 := rfl
@[simp] theorem State.complete_raw (s : State) (st : Status) (c : Cause) (r : Results) : (s.complete st c r).raw = s.raw := rfl
@[simp] theorem State.complete_count (s : State) (st : Status) (c : Cause) (r : Results) : (s.complete st c r).count = s.count := rfl
@[simp] theorem State.complete_status (s : State) (st : Status) (c : Cause) (r : Results) : (s.complete st c r).status = st := rfl
@[simp] theorem State.complete_cause (s : State) (st : Status) (c : Cause) (r : Results) : (s.complete st c r).cause = c := rfl
@[simp] theorem State.complete_res (s : State) (st : Status) (c : Cause) (r : Results) : (s.complete st c r).res = r := rfl
@[simp] theorem State.complete_src (s : State) (st : Status) (c : Cause) (r : Results) : (s.complete st c r).src = s.src := rfl
@[simp] theorem State.complete_inputs (s : State) (st : Status) (c : Cause) (r : Results) : (s.complete st c r).inputs = s.inputs := rfl

/-! ## arm -/

@[simp] theorem State.arm_cfg (s : State) : (s.arm).cfg = s.cfg := rfl
@[simp] theorem State.arm_lstate (s : State) : (s.arm).lstate = .scan := rfl
@[simp] theorem State.arm_ncol (s : State) : (s.arm).ncol = 0#2 := rfl
@[simp] theorem State.arm_raw (s : State) : (s.arm).raw = 0#32 := rfl
@[simp] theorem State.arm_count (s : State) : (s.arm).count = 0 := rfl
@[simp] theorem State.arm_status (s : State) : (s.arm).status = .none := rfl
@[simp] theorem State.arm_cause (s : State) : (s.arm).cause = .none := rfl
@[simp] theorem State.arm_res (s : State) : (s.arm).res = Results.zero := rfl
@[simp] theorem State.arm_src (s : State) : (s.arm).src = s.src := rfl
@[simp] theorem State.arm_inputs (s : State) : (s.arm).inputs = s.inputs := rfl

/-! ## collect -/

@[simp] theorem State.collect_cfg (s : State) (n : BitVec 2) (w : Word) : (s.collect n w).cfg = s.cfg := rfl
@[simp] theorem State.collect_lstate (s : State) (n : BitVec 2) (w : Word) : (s.collect n w).lstate = .collect := rfl
@[simp] theorem State.collect_ncol (s : State) (n : BitVec 2) (w : Word) : (s.collect n w).ncol = n := rfl
@[simp] theorem State.collect_raw (s : State) (n : BitVec 2) (w : Word) : (s.collect n w).raw = w := rfl
@[simp] theorem State.collect_count (s : State) (n : BitVec 2) (w : Word) : (s.collect n w).count = s.count := rfl
@[simp] theorem State.collect_status (s : State) (n : BitVec 2) (w : Word) : (s.collect n w).status = s.status := rfl
@[simp] theorem State.collect_cause (s : State) (n : BitVec 2) (w : Word) : (s.collect n w).cause = s.cause := rfl
@[simp] theorem State.collect_res (s : State) (n : BitVec 2) (w : Word) : (s.collect n w).res = s.res := rfl
@[simp] theorem State.collect_src (s : State) (n : BitVec 2) (w : Word) : (s.collect n w).src = s.src := rfl
@[simp] theorem State.collect_inputs (s : State) (n : BitVec 2) (w : Word) : (s.collect n w).inputs = s.inputs := rfl

/-! ## resetRegisters -/

@[simp] theorem State.resetRegisters_cfg (s : State) : (s.resetRegisters).cfg = s.cfg := rfl
@[simp] theorem State.resetRegisters_lstate (s : State) : (s.resetRegisters).lstate = .idle := rfl
@[simp] theorem State.resetRegisters_ncol (s : State) : (s.resetRegisters).ncol = 0#2 := rfl
@[simp] theorem State.resetRegisters_raw (s : State) : (s.resetRegisters).raw = 0#32 := rfl
@[simp] theorem State.resetRegisters_count (s : State) : (s.resetRegisters).count = 0 := rfl
@[simp] theorem State.resetRegisters_status (s : State) : (s.resetRegisters).status = .none := rfl
@[simp] theorem State.resetRegisters_cause (s : State) : (s.resetRegisters).cause = .none := rfl
@[simp] theorem State.resetRegisters_res (s : State) : (s.resetRegisters).res = Results.zero := rfl
@[simp] theorem State.resetRegisters_src (s : State) : (s.resetRegisters).src = s.src := rfl
@[simp] theorem State.resetRegisters_inputs (s : State) : (s.resetRegisters).inputs = s.inputs := rfl

/-! ## advance -/

@[simp] theorem State.advance_cfg (s : State) (e : Edge) (rest : List Edge) : (s.advance e rest).cfg = s.cfg := rfl
@[simp] theorem State.advance_lstate (s : State) (e : Edge) (rest : List Edge) : (s.advance e rest).lstate = s.lstate := rfl
@[simp] theorem State.advance_ncol (s : State) (e : Edge) (rest : List Edge) : (s.advance e rest).ncol = s.ncol := rfl
@[simp] theorem State.advance_raw (s : State) (e : Edge) (rest : List Edge) : (s.advance e rest).raw = s.raw := rfl
@[simp] theorem State.advance_count (s : State) (e : Edge) (rest : List Edge) : (s.advance e rest).count = s.count := rfl
@[simp] theorem State.advance_status (s : State) (e : Edge) (rest : List Edge) : (s.advance e rest).status = s.status := rfl
@[simp] theorem State.advance_cause (s : State) (e : Edge) (rest : List Edge) : (s.advance e rest).cause = s.cause := rfl
@[simp] theorem State.advance_res (s : State) (e : Edge) (rest : List Edge) : (s.advance e rest).res = s.res := rfl
@[simp] theorem State.advance_src (s : State) (e : Edge) (rest : List Edge) : (s.advance e rest).src = dutiesAfter s e (select s e) := rfl
@[simp] theorem State.advance_inputs (s : State) (e : Edge) (rest : List Edge) : (s.advance e rest).inputs = rest := rfl

/-! ## offer -/

@[simp] theorem State.offer_cfg (s : State) (p : PortWord) : (s.offer p).cfg = s.cfg := rfl
@[simp] theorem State.offer_lstate (s : State) (p : PortWord) : (s.offer p).lstate = if readyFor s.lstate s.ncol p then s.lstate else tableControl p := rfl
@[simp] theorem State.offer_ncol (s : State) (p : PortWord) : (s.offer p).ncol = if readyFor s.lstate s.ncol p then s.ncol else 0#2 := rfl
@[simp] theorem State.offer_raw (s : State) (p : PortWord) : (s.offer p).raw = s.raw := rfl
@[simp] theorem State.offer_count (s : State) (p : PortWord) : (s.offer p).count = s.count := rfl
@[simp] theorem State.offer_status (s : State) (p : PortWord) : (s.offer p).status = s.status := rfl
@[simp] theorem State.offer_cause (s : State) (p : PortWord) : (s.offer p).cause = s.cause := rfl
@[simp] theorem State.offer_res (s : State) (p : PortWord) : (s.offer p).res = s.res := rfl
@[simp] theorem State.offer_src (s : State) (p : PortWord) : (s.offer p).src = Duties.none := rfl
@[simp] theorem State.offer_inputs (s : State) (p : PortWord) : (s.offer p).inputs = edgeOf p :: s.inputs := rfl

/-! ## Registers -/

theorem SameRegisters.refl (s : State) : SameRegisters s s := ⟨rfl, rfl, rfl, rfl, rfl, rfl, rfl, rfl⟩

theorem advance_sameRegisters (s : State) (e : Edge) (rest : List Edge) : SameRegisters s (s.advance e rest) :=
  ⟨rfl, rfl, rfl, rfl, rfl, rfl, rfl, rfl⟩

end Sys2Proof.Machine
end

