-- ==== Sys2Proof/Laws/Step.lean ====
section
/-! SUPPORT. Everything a step can do, and what the environment's part of a step is. -/

namespace Sys2Proof.Machine

/-- Everything `whenAccepted` can answer. -/
theorem whenAccepted_cases (a : Bool) (s : State) (f : State → Host.Outcome State Fault Refusal) :
    (a = true ∧ whenAccepted a s f = f s) ∨ (a = false ∧ whenAccepted a s f = .next s) := by
  cases a
  · exact .inr ⟨rfl, rfl⟩
  · exact .inl ⟨rfl, rfl⟩

/-- Every way a step answers a next state. -/
theorem step_cases {s t : State} (h : step s = .next t) :
    configWf s.cfg = true ∧
      ((s.inputs = [] ∧ t = s) ∨
        ∃ e rest, s.inputs = e :: rest ∧ brokenDuty s e = none ∧
          ((select s e = none ∧ t = s.advance e rest) ∨
            ∃ i, select s e = some i ∧ exec i (s.advance e rest) = .next t)) := by
  unfold step at h
  by_cases hc : configWf s.cfg = true
  · rw [if_pos hc] at h
    refine ⟨hc, ?_⟩
    cases hi : s.inputs with
    | nil => rw [hi] at h; exact .inl ⟨rfl, (Host.Outcome.next.inj h).symm⟩
    | cons e rest =>
      rw [hi] at h
      refine .inr ⟨e, rest, rfl, ?_⟩
      cases hb : brokenDuty s e with
      | some r => simp only [hb] at h; nomatch h
      | none =>
        simp only [hb] at h
        refine ⟨rfl, ?_⟩
        cases hs : select s e with
        | none => simp only [hs] at h; exact .inl ⟨rfl, (Host.Outcome.next.inj h).symm⟩
        | some i => simp only [hs] at h; exact .inr ⟨i, rfl, h⟩
  · rw [if_neg hc] at h; nomatch h

/-- A step at an edge that breaks no duty: the accepted event runs past the edge. -/
theorem step_edge {s : State} {e : Edge} {rest : List Edge} (hc : configWf s.cfg = true) (hi : s.inputs = e :: rest)
    (hb : brokenDuty s e = none) :
    step s = match select s e with
      | none => .next (s.advance e rest)
      | some i => exec i (s.advance e rest) := by
  cases hs : select s e <;> simp [step, hc, hi, hb, hs]

/-- A step at the end of the script. -/
theorem step_nil {s : State} (hc : configWf s.cfg = true) (hi : s.inputs = []) : step s = .next s := by
  simp only [step, hc, if_true, hi]

/-! ## Which event an edge accepts -/

/-- A decoded stream event's row applies in the control state it was decoded in. -/
theorem decodeStream_applies {l : LState} {n : BitVec 2} {v : StreamVec} {i : Instr} (h : decodeStream l n v = some i) :
    i.appliesIn l n = true := by
  cases l <;> simp only [decodeStream] at h <;> repeat' split at h
  all_goals first
    | (cases h; simp_all [Instr.appliesIn])
    | cases h

/-- The four commands, by their code. -/
theorem commandOf_cases (op : BitVec 2) (w : Word) :
    (op = 0b00#2 ∧ commandOf op w = .nop w) ∨ (op = 0b01#2 ∧ commandOf op w = .start w) ∨
      (op = 0b10#2 ∧ commandOf op w = .decode w) ∨ (op = 0b11#2 ∧ commandOf op w = .cmdReserved w) := by
  have h : ∀ op : BitVec 2, op = 0b00#2 ∨ op = 0b01#2 ∨ op = 0b10#2 ∨ op = 0b11#2 := by decide
  rcases h op with rfl | rfl | rfl | rfl <;> simp [commandOf]

/-- Everything an edge can accept (10_state.md R36). -/
theorem select_cases (s : State) (e : Edge) :
    (e.rst = true ∧ select s e = some .reset) ∨
    (e.rst = false ∧ e.stall = true ∧ select s e = none) ∨
    (e.rst = false ∧ e.stall = false ∧ (e.cValid = true ∧ cReady s e = true) ∧
      select s e = some (commandOf e.cOp e.cWord)) ∨
    (e.rst = false ∧ e.stall = false ∧ ¬ (e.cValid = true ∧ cReady s e = true) ∧
      select s e = decodeStream s.lstate s.ncol e.stream) := by
  unfold select
  cases h1 : e.rst <;> cases h2 : e.stall <;> by_cases h3 : e.cValid = true ∧ cReady s e = true <;> simp [h3]

/-- A DECODE is accepted only outside a locate (10_state.md R30). -/
theorem cReady_decode {s : State} {e : Edge} (h : cReady s e = true) (hop : e.cOp = 0b10#2) : locating s.lstate = false := by
  simpa [cReady, hop] using h

/-- The event that an edge accepts is one whose row applies in the control state it meets. -/
theorem select_applies {s : State} {e : Edge} {i : Instr} (h : select s e = some i) : i.appliesIn s.lstate s.ncol = true := by
  rcases select_cases s e with ⟨_, h'⟩ | ⟨_, _, h'⟩ | ⟨_, _, _, h'⟩ | ⟨_, _, _, h'⟩ <;> rw [h'] at h
  · cases h; rfl
  · cases h
  · rcases commandOf_cases e.cOp e.cWord with ⟨_, hc⟩ | ⟨_, hc⟩ | ⟨_, hc⟩ | ⟨_, hc⟩ <;> rw [hc] at h <;> cases h <;> rfl
  · exact decodeStream_applies h

/-- Without duties outstanding, no edge breaks one. -/
theorem brokenDuty_none {s : State} (e : Edge) (h : s.src = Duties.none) : brokenDuty s e = none := by
  simp [brokenDuty, dataChanged, levelBroken, h, Duties.none, LevelDuty.none]

/-- Where no event of the edge starts a locate and neither level is high, nothing new is owed for it. -/
theorem levelDutyAfter_none {i : Option Instr} : levelDutyAfter LevelDuty.none false i = LevelDuty.none := by
  simp [levelDutyAfter, LevelDuty.none]

/-- START ends what the source owes for a level. -/
theorem levelDutyAfter_start (d : LevelDuty) (level : Bool) (w : Word) :
    levelDutyAfter d level (some (.start w)) = LevelDuty.none := rfl

/-! The tests of the three duties, as propositions on the state and the edge. -/

theorem dataChanged_iff (s : State) (e : Edge) : dataChanged s e = true ↔ BreaksDataDuty s e := by
  unfold dataChanged BreaksDataDuty
  cases s.src.held with
  | none => simp
  | some b => simp only [Option.any_some, Bool.and_eq_true, bne_iff_ne, Option.some.injEq, exists_eq_left', ne_comm (a := b)]

theorem eosBroken_iff (s : State) (e : Edge) : levelBroken s e s.src.eos e.stream.sEos = true ↔ BreaksEosDuty s e := by
  simp [levelBroken, BreaksEosDuty]; tauto

theorem errBroken_iff (s : State) (e : Edge) : levelBroken s e s.src.err e.stream.sErr = true ↔ BreaksErrDuty s e := by
  simp [levelBroken, BreaksErrDuty]; tauto

/-! What the outputs are, by whether the edge is a stall cycle. -/

theorem outputs_of_running (s : State) {e : Edge} (h : e.rst = true ∨ e.stall = false) :
    outputs s e = { cReady := cReady s e, sReady := sReady s e, shown := shown s } := by
  have : stalled e = false := by rcases h with h | h <;> simp [stalled, h]
  simp [outputs, this]

theorem outputs_of_stalled (s : State) {e : Edge} (hr : e.rst = false) (hs : e.stall = true) :
    outputs s e = { cReady := false, sReady := false, shown := Config.stallShown s.inputs.length } := by
  simp [outputs, stalled, hr, hs]

end Sys2Proof.Machine
end

