-- ==== Sys2Proof/Laws/Exec.lean ====
section
/-! SUPPORT. Everything an event can do, said once for all of Instr. -/

namespace Sys2Proof.Machine

/-- Everything `exec` can answer when it answers a next state. The last case is a header class's own meaning. -/
theorem exec_next_cases {i : Instr} {s t : State} (h : exec i s = .next t) :
    t = s ∨
    (t = s.arm ∧ ∃ w, i = .start w) ∨
    (t = s.resetRegisters ∧ i = .reset) ∨
    (t = s.take ∧ s.lstate = .scan ∧ ∃ e b, i = .byteSkip e b ∧ b ≠ 0xFF#8) ∨
    (t = s.take.collect 1#2 0xFF#32 ∧ s.lstate = .scan ∧ ∃ e, i = .byteLead e) ∨
    (∃ e b, i = .byteCollect e b ∧ s.lstate = .collect ∧ s.ncol ≠ 3#2 ∧
      t = s.take.collect (s.ncol + 1#2) (shiftIn s.raw b)) ∨
    (∃ e b, i = .byteFinal e b ∧ s.lstate = .collect ∧ s.ncol = 3#2 ∧ commit (shiftIn s.raw b) s.take = .next t) ∨
    (t = s.complete .syncNotFound .noLead Results.zero ∧ s.lstate = .scan ∧ ∃ b, i = .eosScan b) ∨
    (t = s.complete .syncNotFound .truncated Results.zero ∧ s.lstate = .collect ∧ ∃ b, i = .eosCollect b) ∨
    (t = s.complete .streamUnavailable .none Results.zero ∧ locating s.lstate = true ∧ ∃ a e b, i = .sErr a e b) ∨
    (∃ w, i = .decode w ∧ locating s.lstate = false ∧ commit w s = .next t) ∨
    (∃ w d, commitDecoded w d s = .next t ∧ encode i = .header w) := by
  cases i <;> simp only [exec] at h
  case nop => cases h; simp
  case cmdReserved => cases h; simp
  case streamIgnored => cases h; simp
  case start w => cases h; simp
  case reset => cases h; simp
  case decode w =>
    rcases whenAccepted_cases _ s (commit w) with ⟨ha, e⟩ | ⟨_, e⟩ <;> rw [execDecode, e] at h
    · simp at ha; simp [ha, h]
    · cases h; simp
  case byteSkip a b => unfold execByteSkip whenAccepted at h; split at h <;> cases h <;> simp_all
  case byteLead a => unfold execByteLead whenAccepted at h; split at h <;> cases h <;> simp_all
  case byteCollect a b => unfold execByteCollect whenAccepted at h; split at h <;> cases h <;> simp_all
  case byteFinal a b =>
    unfold execByteFinal whenAccepted at h; split at h
    · simp_all
    · cases h; simp
  case eosScan b => unfold execEosScan whenAccepted at h; split at h <;> cases h <;> simp_all
  case eosCollect b => unfold execEosCollect whenAccepted at h; split at h <;> cases h <;> simp_all
  case sErr a b c => unfold execSErr whenAccepted at h; split at h <;> cases h <;> simp_all
  all_goals
    iterate 11 right
    first
      | exact ⟨_, _, h, rfl⟩
      | exact ⟨_, .invalid .sync, h, rfl⟩
      | exact ⟨_, .invalid .layer, h, rfl⟩
      | exact ⟨_, .invalid .version, h, rfl⟩

/-- No edge's accepted event is a header class: header words run inside DECODE and BYTE_FINAL (log 10). -/
theorem select_not_header {s : State} {e : Edge} {i : Instr} (h : select s e = some i) (w : Word) : encode i ≠ .header w := by
  rcases select_cases s e with ⟨_, h'⟩ | ⟨_, _, h'⟩ | ⟨_, _, _, h'⟩ | ⟨_, _, _, h'⟩ <;> rw [h'] at h
  · cases h; simp [encode]
  · cases h
  · rcases commandOf_cases e.cOp e.cWord with ⟨_, hc⟩ | ⟨_, hc⟩ | ⟨_, hc⟩ | ⟨_, hc⟩ <;> rw [hc] at h <;> cases h <;> simp [encode]
  · cases hl : s.lstate <;> simp only [hl, decodeStream] at h <;> repeat' split at h
    all_goals cases h
    all_goals simp [encode, streamOf]

/-- A commit leaves everything but the registers it names (41_decoder.md R125). -/
theorem commitDecoded_frame {w : Word} {d : Decoded} {s t : State} (h : commitDecoded w d s = .next t) :
    t.lstate = .done ∧ t.ncol = 0#2 ∧ t.raw = w ∧ t.count = s.count ∧ t.cfg = s.cfg ∧ t.src = s.src ∧ t.inputs = s.inputs := by
  rcases commitDecoded_next h with ⟨_, _, rfl⟩ | ⟨_, _, rfl⟩ <;> simp

/-- The configuration, the script and the duties are no event's to change. -/
theorem exec_environment {i : Instr} {s t : State} (h : exec i s = .next t) :
    t.cfg = s.cfg ∧ t.src = s.src ∧ t.inputs = s.inputs := by
  rcases exec_next_cases h with rfl | ⟨rfl, _⟩ | ⟨rfl, _⟩ | ⟨rfl, _⟩ | ⟨rfl, _⟩ | ⟨_, _, _, _, _, rfl⟩ | ⟨_, _, _, _, _, hc⟩ |
    ⟨rfl, _⟩ | ⟨rfl, _⟩ | ⟨rfl, _⟩ | ⟨_, _, _, hc⟩ | ⟨_, _, hc, _⟩
  · simp
  · simp
  · simp
  · simp
  · simp
  · simp
  · have := commitDecoded_frame hc; simp_all
  · simp
  · simp
  · simp
  · have := commitDecoded_frame hc; simp_all
  · have := commitDecoded_frame hc; simp_all

/-- What a step leaves of the environment's part of the state. -/
theorem step_environment {s t : State} {e : Edge} {rest : List Edge} (hi : s.inputs = e :: rest) (h : step s = .next t) :
    t.src = dutiesAfter s e (select s e) ∧ t.inputs = rest ∧ t.cfg = s.cfg := by
  obtain ⟨_, ⟨h0, _⟩ | ⟨e', r', h1, _, h2⟩⟩ := step_cases h
  · rw [hi] at h0; cases h0
  · rw [hi] at h1; cases h1
    rcases h2 with ⟨_, rfl⟩ | ⟨i, _, hx⟩
    · simp
    · obtain ⟨a, b, c⟩ := exec_environment hx; simp_all

/-- An event that an edge accepts completes the locate exactly where it leads from SCAN or COLLECT into DONE. -/
theorem exec_completes_iff {i : Instr} {s t : State} (ha : i.appliesIn s.lstate s.ncol = true) (hn : ∀ w, encode i ≠ .header w)
    (h : exec i s = .next t) : eventCompletesLocate i = true ↔ locating s.lstate = true ∧ t.lstate = .done := by
  cases i
  case sErr =>
    have hl : locating s.lstate = true := by simpa [Instr.appliesIn, locating] using ha
    rw [exec, execSErr, hl] at h; cases h; simp [eventCompletesLocate, hl]
  case eosScan =>
    have hl : s.lstate = .scan := by simpa [Instr.appliesIn] using ha
    rw [exec, execEosScan, hl] at h; cases h; simp [eventCompletesLocate, hl, locating]
  case eosCollect =>
    have hl : s.lstate = .collect := by simpa [Instr.appliesIn] using ha
    rw [exec, execEosCollect, hl] at h; cases h; simp [eventCompletesLocate, hl, locating]
  case byteFinal e b =>
    have hl : s.lstate = .collect ∧ s.ncol = 3#2 := by simpa [Instr.appliesIn] using ha
    rw [exec, execByteFinal, hl.1, hl.2] at h
    simp [eventCompletesLocate, hl, locating, (commitDecoded_frame h).1]
  case decode w =>
    rcases whenAccepted_cases (!locating s.lstate) s (commit w) with ⟨hl, _⟩ | ⟨hl, e⟩
    · simp at hl; simp [eventCompletesLocate, hl]
    · rw [exec, execDecode, e] at h; cases h
      simp [eventCompletesLocate]
      intro h1 h2; rw [h2] at h1; cases h1
  case nop => cases h; simp [eventCompletesLocate]; intro h1 h2; rw [h2] at h1; cases h1
  case cmdReserved => cases h; simp [eventCompletesLocate]; intro h1 h2; rw [h2] at h1; cases h1
  case streamIgnored => cases h; simp [eventCompletesLocate]; intro h1 h2; rw [h2] at h1; cases h1
  case start => cases h; simp [eventCompletesLocate]
  case reset => cases h; simp [eventCompletesLocate]
  case byteSkip e b =>
    rcases whenAccepted_cases (s.lstate = .scan && b != 0xFF#8) s (fun s => .next s.take) with ⟨_, e'⟩ | ⟨_, e'⟩ <;>
      rw [exec, execByteSkip, e'] at h <;> cases h <;> simp [eventCompletesLocate] <;> intro h1 h2 <;> rw [h2] at h1 <;> cases h1
  case byteLead e =>
    have hl : s.lstate = .scan := by simpa [Instr.appliesIn] using ha
    rw [exec, execByteLead, hl] at h; cases h; simp [eventCompletesLocate]
  case byteCollect e b =>
    have hl : s.lstate = .collect ∧ s.ncol ≠ 3#2 := by simpa [Instr.appliesIn] using ha
    simp [exec, execByteCollect, hl, whenAccepted] at h; cases h; simp [eventCompletesLocate]
  all_goals exact absurd rfl (hn _)

/-- At an edge, the locate completes exactly where a step leads from SCAN or COLLECT into DONE (40_locator.md R80). -/
theorem step_completes_iff {s t : State} {e : Edge} {rest : List Edge} (hi : s.inputs = e :: rest) (h : step s = .next t) :
    completesLocateAt (select s e) = true ↔ (s.lstate = .scan ∨ s.lstate = .collect) ∧ t.lstate = .done := by
  obtain ⟨_, ⟨h0, _⟩ | ⟨e', r', h1, _, h2⟩⟩ := step_cases h
  · rw [hi] at h0; cases h0
  · rw [hi] at h1; cases h1
    rcases h2 with ⟨hs, rfl⟩ | ⟨i, hs, hx⟩
    · rw [hs]; simp [completesLocateAt]; rintro (h | h) <;> simp [h]
    · rw [hs]
      have := exec_completes_iff (s := s.advance e rest) (select_applies hs) (select_not_header hs) hx
      have hl : (s.lstate = .scan ∨ s.lstate = .collect) ↔ locating s.lstate = true := by cases s.lstate <;> decide
      rw [hl]; exact this

/-- The meaning of a class that is not reserved. -/
theorem exec_classOf (v : Version) (l : Layer) (f : HeaderFields) (s : State) : exec (classOf v l f) s = commitClass v l f s := by
  cases v <;> cases l <;> rfl

/-- `decode` reads the ROMs inside their rows only, so every commit answers (20_memory.md R41, R42). -/
theorem commit_answers {s : State} (w : Word) (h : configWf s.cfg = true) : ∃ t, commit w s = .next t := by
  refine commitDecoded_answers s ?_
  rcases decode_cases s.cfg w with ⟨_, e⟩ | ⟨_, _, e⟩ | ⟨_, _, _, e⟩ | ⟨v, l, _, _, _, _, e⟩ <;> rw [e]
  · simp
  · simp
  · simp
  · exact decodeRest_ne_outsideRom h v l _

theorem whenAccepted_answers {a : Bool} {s : State} {f : State → Host.Outcome State Fault Refusal}
    (h : ∃ t, f s = .next t) : ∃ t, whenAccepted a s f = .next t := by
  rcases whenAccepted_cases a s f with ⟨_, e⟩ | ⟨_, e⟩ <;> rw [e]
  · exact h
  · exact ⟨_, rfl⟩

/-- Under a well-formed configuration every event answers a next state. -/
theorem exec_answers (i : Instr) {s : State} (h : configWf s.cfg = true) : ∃ t, exec i s = .next t := by
  cases i <;> simp only [exec]
  case decode w => exact whenAccepted_answers (commit_answers w h)
  case byteFinal e b => exact whenAccepted_answers (commit_answers (s := s.take) _ h)
  case sErr => exact whenAccepted_answers ⟨_, rfl⟩
  case byteLead => exact whenAccepted_answers ⟨_, rfl⟩
  case byteSkip => exact whenAccepted_answers ⟨_, rfl⟩
  case byteCollect => exact whenAccepted_answers ⟨_, rfl⟩
  case eosScan => exact whenAccepted_answers ⟨_, rfl⟩
  case eosCollect => exact whenAccepted_answers ⟨_, rfl⟩
  all_goals first
    | exact ⟨_, rfl⟩
    | exact commitDecoded_answers s (decodeRest_ne_outsideRom h _ _ _)

end Sys2Proof.Machine
end

