-- ==== Sys2Proof/Laws/PerInstr.lean ====
section
/-! SUPPORT. Per-instruction laws. MatchesRow: what encodes a well-formed instruction meets the mask and match that
opcode_table.json gives its row. -/

namespace Sys2Proof.Laws

/-- The encoding of a well-formed instruction is one its row of the table admits. -/
def MatchesRow.Statement (i : Instr) : Prop := i.wf = true → i.row.admits (encode i).toNat = true

theorem MatchesRow.headerClass (v l : BitVec 2) (f : HeaderFields) (p : Nat)
    (h : (2047 * 16 + v.toNat * 4 + l.toNat) * 2 ^ 17 = p) :
    (Row.mk 0xFFFE0000 p true).admits (headerWord syncPattern v l f).toNat = true := by
  obtain ⟨r, hr, e⟩ := toNat_headerWord_split syncPattern v l f
  have hs : syncPattern.toNat = 2047 := rfl
  have := v.isLt
  have := l.isLt
  simp only [Row.admits, and_layerMask, beq_iff_eq]
  rw [e, hs]
  have q : (2047 * 2 ^ 21 + v.toNat * 2 ^ 19 + l.toNat * 2 ^ 17 + r) / 2 ^ 17 * 2 ^ 17 = p := by
    subst h; clear e; omega
  rw [q]

theorem MatchesRow.hdrSyncMismatch (w : Word) : MatchesRow.Statement (.hdrSyncMismatch w) := by
  intro h
  have hw : ¬ (w &&& 0xFFE00000#32 = 0xFFE00000#32) := by simpa [Instr.wf] using h
  have hn : ¬ (w.toNat &&& 0xFFE00000 = 0xFFE00000) := fun e => hw (BitVec.eq_of_toNat_eq (by simpa using e))
  simp [Instr.row, Row.admits, encode, PortWord.toNat, hn]

theorem MatchesRow.hdrV1L1 (f : HeaderFields) : MatchesRow.Statement (.hdrV1L1 f) := fun _ => MatchesRow.headerClass _ _ f _ (by decide)
theorem MatchesRow.hdrV1L2 (f : HeaderFields) : MatchesRow.Statement (.hdrV1L2 f) := fun _ => MatchesRow.headerClass _ _ f _ (by decide)
theorem MatchesRow.hdrV1L3 (f : HeaderFields) : MatchesRow.Statement (.hdrV1L3 f) := fun _ => MatchesRow.headerClass _ _ f _ (by decide)
theorem MatchesRow.hdrV1LRes (f : HeaderFields) : MatchesRow.Statement (.hdrV1LRes f) := fun _ => MatchesRow.headerClass _ _ f _ (by decide)
theorem MatchesRow.hdrV2L1 (f : HeaderFields) : MatchesRow.Statement (.hdrV2L1 f) := fun _ => MatchesRow.headerClass _ _ f _ (by decide)
theorem MatchesRow.hdrV2L2 (f : HeaderFields) : MatchesRow.Statement (.hdrV2L2 f) := fun _ => MatchesRow.headerClass _ _ f _ (by decide)
theorem MatchesRow.hdrV2L3 (f : HeaderFields) : MatchesRow.Statement (.hdrV2L3 f) := fun _ => MatchesRow.headerClass _ _ f _ (by decide)
theorem MatchesRow.hdrV2LRes (f : HeaderFields) : MatchesRow.Statement (.hdrV2LRes f) := fun _ => MatchesRow.headerClass _ _ f _ (by decide)
theorem MatchesRow.hdrV25L1 (f : HeaderFields) : MatchesRow.Statement (.hdrV25L1 f) := fun _ => MatchesRow.headerClass _ _ f _ (by decide)
theorem MatchesRow.hdrV25L2 (f : HeaderFields) : MatchesRow.Statement (.hdrV25L2 f) := fun _ => MatchesRow.headerClass _ _ f _ (by decide)
theorem MatchesRow.hdrV25L3 (f : HeaderFields) : MatchesRow.Statement (.hdrV25L3 f) := fun _ => MatchesRow.headerClass _ _ f _ (by decide)
theorem MatchesRow.hdrV25LRes (f : HeaderFields) : MatchesRow.Statement (.hdrV25LRes f) := fun _ => MatchesRow.headerClass _ _ f _ (by decide)

theorem MatchesRow.hdrVRes (lay : BitVec 2) (f : HeaderFields) : MatchesRow.Statement (.hdrVRes lay f) := by
  intro _
  obtain ⟨r, hr, e⟩ := toNat_headerWord_split syncPattern 0b01#2 lay f
  have hs : syncPattern.toNat = 2047 := rfl
  have hv : (0b01#2 : BitVec 2).toNat = 1 := rfl
  have := lay.isLt
  simp only [Instr.row, Row.admits, encode, PortWord.toNat, and_versionMask, beq_iff_eq]
  rw [e, hs, hv]
  rw [show (2047 * 2 ^ 21 + 1 * 2 ^ 19 + lay.toNat * 2 ^ 17 + r) / 2 ^ 19 * 2 ^ 19 = 0xFFE80000 by omega]

theorem MatchesRow.command (op : BitVec 2) (w : Word) (p : Nat) (h : op.toNat * 2 ^ 32 = p) :
    (Row.mk 0x300000000 p true).admits (op ++ w : BitVec 34).toNat = true := by
  have e : (op ++ w : BitVec 34).toNat &&& 0x300000000 = (op ++ w : BitVec 34).toNat / 2 ^ 32 * 2 ^ 32 :=
    and_highMask _ 32 2 (op ++ w : BitVec 34).isLt
  have hw := w.isLt
  simp only [Row.admits, e, beq_iff_eq]
  rw [toNat_command]
  have q : (op.toNat * 2 ^ 32 + w.toNat) / 2 ^ 32 * 2 ^ 32 = p := by
    subst h; clear e; omega
  rw [q]

theorem MatchesRow.nop (w : Word) : MatchesRow.Statement (.nop w) := fun _ => MatchesRow.command 0b00#2 w _ (by decide)
theorem MatchesRow.start (w : Word) : MatchesRow.Statement (.start w) := fun _ => MatchesRow.command 0b01#2 w _ (by decide)
theorem MatchesRow.decode (w : Word) : MatchesRow.Statement (.decode w) := fun _ => MatchesRow.command 0b10#2 w _ (by decide)
theorem MatchesRow.cmdReserved (w : Word) : MatchesRow.Statement (.cmdReserved w) := fun _ => MatchesRow.command 0b11#2 w _ (by decide)

theorem MatchesRow.sErr (a e : Bool) (b : Byte) : MatchesRow.Statement (.sErr a e b) := by
  cases a <;> cases e <;> revert b <;> unfold MatchesRow.Statement <;> decide +kernel
theorem MatchesRow.byteLead (e : Bool) : MatchesRow.Statement (.byteLead e) := by
  cases e <;> unfold MatchesRow.Statement <;> decide +kernel
theorem MatchesRow.byteSkip (e : Bool) (b : Byte) : MatchesRow.Statement (.byteSkip e b) := by
  cases e <;> revert b <;> unfold MatchesRow.Statement <;> decide +kernel
theorem MatchesRow.byteCollect (e : Bool) (b : Byte) : MatchesRow.Statement (.byteCollect e b) := by
  cases e <;> revert b <;> unfold MatchesRow.Statement <;> decide +kernel
theorem MatchesRow.byteFinal (e : Bool) (b : Byte) : MatchesRow.Statement (.byteFinal e b) := by
  cases e <;> revert b <;> unfold MatchesRow.Statement <;> decide +kernel
theorem MatchesRow.eosScan (b : Byte) : MatchesRow.Statement (.eosScan b) := by
  revert b; unfold MatchesRow.Statement; decide +kernel
theorem MatchesRow.eosCollect (b : Byte) : MatchesRow.Statement (.eosCollect b) := by
  revert b; unfold MatchesRow.Statement; decide +kernel
theorem MatchesRow.streamIgnored (v : StreamVec) : MatchesRow.Statement (.streamIgnored v) := fun _ => by
  simp [Instr.row, Row.admits]
theorem MatchesRow.reset : MatchesRow.Statement .reset := fun _ => rfl

end Sys2Proof.Laws
end

