-- ==== Sys2Proof/Laws/Program.lean ====
section
/-! SUPPORT. What a program line and a program do (30_encoding.md R77). -/

namespace Sys2Proof.Machine

/-- No line that is accepted breaks a duty where none is outstanding. -/
theorem brokenDuty_line {s : State} (l : Line) (hq : Quiescent s) (ha : l.accepted s = true) :
    brokenDuty { s with inputs := l.edge :: s.inputs } l.edge = none := by
  obtain ⟨h1, h2, h3, h4⟩ := hq
  have free : locating s.lstate = true → s.src.eos.seen = false ∧ s.src.err.seen = false := by
    intro hl
    refine ⟨?_, ?_⟩ <;> refine Bool.eq_false_iff.2 fun h => ?_ <;> simp [h4 (by simp [h])] at hl
  cases l <;> simp only [Line.accepted] at ha
  case byte b => simp [brokenDuty, dataChanged, levelBroken, h1, h2, h3, free ha]
  all_goals simp [brokenDuty, dataChanged, levelBroken, h2, h3, Line.edge, quiet]

/-- An accepted line is one step at its edge. -/
theorem runLine_eq {s : State} (l : Line) (hc : configWf s.cfg = true) (hq : Quiescent s) (ha : l.accepted s = true) :
    runLine s l = match select s l.edge with
      | none => .next (s.advance l.edge s.inputs)
      | some i => exec i (s.advance l.edge s.inputs) := by
  rw [runLine, if_pos ha]
  exact step_edge (s := { s with inputs := l.edge :: s.inputs }) hc rfl (brokenDuty_line l hq ha)

/-- A program in two parts. -/
theorem runProgram_append (a b : List Line) (s : State) :
    runProgram s (a ++ b) = match runProgram s a with
      | .next t => runProgram t b
      | .fault r => .fault r
      | .refused r => .refused r := by
  induction a generalizing s with
  | nil => rfl
  | cons l ls ih =>
    simp only [List.cons_append, runProgram]
    cases h : runLine s l <;> simp [ih]

theorem quiescent_of_none {s : State} (h : s.src = Duties.none) : Quiescent s := by
  simp [Quiescent, h, Duties.none, LevelDuty.none]

/-- A BYTE line during a locate, no duty outstanding: the byte's event, at the state itself. -/
theorem runLine_byte {s : State} (b : Byte) (hc : configWf s.cfg = true) (hq : s.src = Duties.none)
    (hl : locating s.lstate = true) :
    runLine s (.byte b) = match decodeStream s.lstate s.ncol { sErr := false, sValid := true, sEos := false, sData := b } with
      | none => .next s
      | some i => exec i s := by
  rw [runLine_eq (.byte b) hc (quiescent_of_none hq) hl]
  have hs : select s (Line.byte b).edge =
      decodeStream s.lstate s.ncol { sErr := false, sValid := true, sEos := false, sData := b } := by
    simp [select, Line.edge, quiet]
  have hd : dutiesAfter s (Line.byte b).edge (select s (Line.byte b).edge) = Duties.none := by
    have ht : takesByte (select s (Line.byte b).edge) = true := by
      rw [hs]
      simp [locating] at hl
      rcases hl with hl | hl <;> rw [hl] <;> simp only [decodeStream]
      · by_cases h : b = 0xFF#8 <;> simp [h, takesByte, eventTakes]
      · by_cases h : s.ncol = 3#2 <;> simp [h, takesByte, eventTakes]
    simp only [dutiesAfter, ht, hq, Duties.none]
    simp [Line.edge, quiet, levelDutyAfter_none]
  have ha : s.advance (Line.byte b).edge s.inputs = s := by
    rw [State.advance, hd]
    cases s
    simp at hq
    simp [hq]
  rw [ha, hs]

end Sys2Proof.Machine
end

