-- ==== Sys2Proof/Tests/Slice0.lean ====
section
/-! SUPPORT. Tests. Expected values come from spec/: words from 30_encoding.md R60, R73, R74, results from the rows of
95_test_vectors.md (V-…), or by hand from 42_framesize.md R141 where a comment says so. `witness_<Name>` shows that the
hypotheses of Obligations.<Name> are met. -/

namespace Sys2Proof.Tests

open Sys2Proof.Machine

/-! ## Small states and edges -/

def scanning (count : Nat) : State := { State.reset with lstate := .scan, count := count }
def collecting (n : BitVec 2) (raw : Word) (count : Nat) : State :=
  { State.reset with lstate := .collect, ncol := n, raw := raw, count := count }
def doneWith (st : Status) (c : Cause) (raw : Word) (count : Nat) : State :=
  { State.reset with lstate := .done, status := st, cause := c, raw := raw, count := count }
def command (op : BitVec 2) (w : Word) : Edge := { quiet with cValid := true, cOp := op, cWord := w }
def stream (sErr sValid sEos : Bool) (b : Byte) : Edge :=
  { quiet with stream := { sErr := sErr, sValid := sValid, sEos := sEos, sData := b } }
def resetEdge : Edge := { quiet with rst := true }

def at1 (s : State) (e : Edge) : State := { s with inputs := [e] }

/-- The state after one step at an edge. -/
def after (s : State) (e : Edge) : Option State :=
  match step (at1 s e) with
  | .next t => some t
  | .fault _ => none
  | .refused _ => none

def refusal (o : Host.Outcome State Fault Refusal) : Option Refusal :=
  match o with
  | .next _ => none
  | .fault _ => none
  | .refused r => some r

/-- LSTATE, NCOL, RAW, COUNT, STATUS, CAUSE. -/
def control (t : State) : LState × BitVec 2 × Word × Nat × Status × Cause :=
  (t.lstate, t.ncol, t.raw, t.count, t.status, t.cause)

/-- STATUS, BR_KBPS, SR_HZ, SLOTS, BYTES after a DECODE from IDLE. -/
def sized (w : Word) : Option (Status × Nat × Nat × Nat × Nat) :=
  (after State.reset (command 0b10#2 w)).map fun t => (t.status, t.res.brKbps, t.res.srHz, t.res.slots, t.res.bytes)

/-- STATUS, CAUSE, RAW and whether the results are 0, after a DECODE from IDLE. -/
def failed (w : Word) : Option (Status × Cause × Word × Bool) :=
  (after State.reset (command 0b10#2 w)).map fun t => (t.status, t.cause, t.raw, t.res = Results.zero)

/-- Every field below the layer code 0. -/
def noFields : HeaderFields :=
  { prot := 0, bri := 0, sri := 0, pad := 0, priv := 0, mode := 0, modext := 0, copy := 0, orig := 0, emph := 0 }

/-! ## Well-formed instructions -/

theorem test_wf_refuses_sync_word : (Instr.hdrSyncMismatch 0xFFE00000#32).wf = false := by decide
theorem test_wf_refuses_skip_of_lead : (Instr.byteSkip false 0xFF#8).wf = false := by decide
theorem test_wf_accepts : (Instr.hdrSyncMismatch 0xFFDFFFFF#32).wf = true ∧ (Instr.byteSkip true 0xFE#8).wf = true := by decide

/-! ## Decoding: words written out from 30_encoding.md R60 (sync, version, layer, then the ten fields) -/

theorem test_decode_syncMismatch :
    decodeHeader 0b11111111110_11_01_1_1001_00_0_0_01_10_0_1_00#32 = .hdrSyncMismatch 0xFFDB9064#32 := by decide
theorem test_decode_v1l1 : decodeHeader 0b11111111111_11_11_0_0001_10_1_0_00_00_0_0_00#32
    = .hdrV1L1 { noFields with bri := 1, sri := 2, pad := 1 } := by decide
theorem test_decode_v1l2 : decodeHeader 0b11111111111_11_10_1_1110_01_1_0_00_00_0_0_00#32
    = .hdrV1L2 { noFields with prot := 1, bri := 14, sri := 1, pad := 1 } := by decide
theorem test_decode_v1l3 : decodeHeader 0b11111111111_11_01_1_1001_00_0_0_01_10_0_1_00#32
    = .hdrV1L3 { noFields with prot := 1, bri := 9, mode := 1, modext := 2, orig := 1 } := by decide
theorem test_decode_v1lres : decodeHeader 0b11111111111_11_00_0_0000_00_0_1_00_00_0_0_00#32
    = .hdrV1LRes { noFields with priv := 1 } := by decide
theorem test_decode_v2l1 : decodeHeader 0b11111111111_10_11_0_0000_00_0_0_10_00_0_0_00#32
    = .hdrV2L1 { noFields with mode := 2 } := by decide
theorem test_decode_v2l2 : decodeHeader 0b11111111111_10_10_0_0000_00_0_0_00_01_0_0_00#32
    = .hdrV2L2 { noFields with modext := 1 } := by decide
theorem test_decode_v2l3 : decodeHeader 0b11111111111_10_01_0_0000_00_0_0_00_00_1_0_00#32
    = .hdrV2L3 { noFields with copy := 1 } := by decide
theorem test_decode_v2lres : decodeHeader 0b11111111111_10_00_0_0000_00_0_0_00_00_0_1_00#32
    = .hdrV2LRes { noFields with orig := 1 } := by decide
theorem test_decode_v25l1 : decodeHeader 0b11111111111_00_11_0_0000_00_0_0_00_00_0_0_10#32
    = .hdrV25L1 { noFields with emph := 2 } := by decide
theorem test_decode_v25l2 : decodeHeader 0b11111111111_00_10_0_0000_11_0_0_00_00_0_0_00#32
    = .hdrV25L2 { noFields with sri := 3 } := by decide
theorem test_decode_v25l3 : decodeHeader 0b11111111111_00_01_0_1000_10_0_0_00_00_0_0_00#32
    = .hdrV25L3 { noFields with bri := 8, sri := 2 } := by decide
theorem test_decode_v25lres : decodeHeader 0b11111111111_00_00_1_0000_00_0_0_00_00_0_0_00#32
    = .hdrV25LRes { noFields with prot := 1 } := by decide
theorem test_decode_vres : decodeHeader 0b11111111111_01_10_0_0000_00_0_0_00_00_0_0_01#32
    = .hdrVRes 0b10#2 { noFields with emph := 1 } := by decide

/-! `c_op` over `c_word` (R74). -/

theorem test_decode_nop : decodeCommand 0b00_00000000000000000000000000000101#34 = .nop 5#32 := by decide
theorem test_decode_start : decodeCommand 0b01_00000000000000000000000000000000#34 = .start 0#32 := by decide
theorem test_decode_decode : decodeCommand 0b10_11111111111110111001000001100100#34 = .decode 0xFFFB9064#32 := by decide
theorem test_decode_cmdReserved : decodeCommand 0b11_00000000000000000000000000000000#34 = .cmdReserved 0#32 := by decide

/-! `s_err`, `s_valid`, `s_eos`, `s_data` (R73; the table's format STRM11), in the control state of the row. -/

theorem test_decode_sErr : decodeAt .scan 0#2 (.stream 0b1_1_0_00010010#11) = .ok (.sErr true false 0x12#8) := by rfl
theorem test_decode_byteLead : decodeAt .scan 0#2 (.stream 0b0_1_0_11111111#11) = .ok (.byteLead false) := by rfl
theorem test_decode_byteSkip : decodeAt .scan 0#2 (.stream 0b0_1_1_11111110#11) = .ok (.byteSkip true 0xFE#8) := by rfl
theorem test_decode_byteCollect :
    decodeAt .collect 1#2 (.stream 0b0_1_0_11111111#11) = .ok (.byteCollect false 0xFF#8) := by rfl
theorem test_decode_byteFinal :
    decodeAt .collect 3#2 (.stream 0b0_1_0_01100100#11) = .ok (.byteFinal false 0x64#8) := by rfl
theorem test_decode_eosScan : decodeAt .scan 0#2 (.stream 0b0_0_1_00000000#11) = .ok (.eosScan 0#8) := by rfl
theorem test_decode_eosCollect : decodeAt .collect 2#2 (.stream 0b0_0_1_00000000#11) = .ok (.eosCollect 0#8) := by rfl
theorem test_decode_streamIgnored : decodeAt .done 0#2 (.stream 0b1_1_1_10000001#11)
    = .ok (.streamIgnored { sErr := true, sValid := true, sEos := true, sData := 0x81#8 }) := by rfl
theorem test_decode_reset : decodeAt .collect 1#2 (.rst 1#1) = .ok .reset := by rfl
theorem test_decode_refuses : decodeAt .scan 0#2 (.stream 0b0_0_0_11111111#11) = .error .noStreamEvent ∧
    decodeAt .scan 0#2 (.rst 0#1) = .error .resetLow := by constructor <;> rfl

/-! The table's words, with its own match values. -/

theorem test_table_header : decodeTableWord 32 0xFFFA0000 = some (.hdrV1L3 noFields) := by decide
theorem test_table_command : decodeTableWord 40 0x200000000 = some (.decode 0#32) := by decide
theorem test_table_stream : decodeTableWord 16 0x2FF = some (.byteLead false) ∧
    decodeTableWord 16 0x400 = some (.sErr false false 0#8) := by decide
theorem test_table_rejects : decodeTableWord 16 0x800 = none ∧ decodeTableWord 8 0 = none ∧ decodeTableWord 40 0x400000000 = none ∧
    decodeTableWord 72 0 = none := by decide

/-! Encodings, against words written out from the spec. -/

theorem test_encode_header : encode (.hdrV1L3 { noFields with prot := 1, bri := 9, mode := 1, modext := 2, orig := 1 })
    = .header 0xFFFB9064#32 := by decide
theorem test_encode_vres : encode (.hdrVRes 0b00#2 noFields) = .header 0xFFE80000#32 := by decide
theorem test_encode_command : encode (.decode 0xFFFB9064#32) = .command 0x2FFFB9064#34 := by decide
theorem test_encode_stream : encode (.byteFinal true 0x64#8) = .stream 0x364#11 ∧ encode (.eosScan 0#8) = .stream 0x100#11 := by
  decide

/-! ## Header classes: V-D vectors -/

theorem test_hdrV1L1 : sized 0xFFFF9000#32 = some (.ok, 288, 44100, 78, 312) := by decide          -- V-D4
theorem test_hdrV1L1_floor : sized 0xFFFF1000#32 = some (.ok, 32, 44100, 8, 32) := by decide       -- V-D5
theorem test_hdrV1L2 : sized 0xFFFDE600#32 = some (.ok, 384, 48000, 289, 1156) := by decide        -- V-D7
theorem test_hdrV1L3 : sized 0xFFFB9264#32 = some (.ok, 128, 44100, 105, 420) := by decide         -- V-D2
theorem test_hdrV1L3_free : sized 0xFFFB0200#32 = some (.ok, 0, 44100, 1, 4) := by decide          -- V-D20
theorem test_hdrV2L1 : sized 0xFFF61A00#32 = some (.ok, 32, 16000, 25, 100) := by decide           -- V-D12
/-- By hand: V2 Layer II, index 13 (144), index 1 (24000): 36*144*1000 div 24000 = 216. -/
theorem test_hdrV2L2 : sized 0xFFF5D400#32 = some (.ok, 144, 24000, 216, 864) := by decide
theorem test_hdrV2L2_short : failed 0xFFF5E000#32 = some (.invalidHeader, .bitrate, 0xFFF5E000#32, true) := by
  decide                                                                                            -- V-D38
theorem test_hdrV2L3 : sized 0xFFF3D4C0#32 = some (.ok, 144, 24000, 216, 864) := by decide         -- V-D14
theorem test_hdrV2L3_short : failed 0xFFF3E4C0#32 = some (.invalidHeader, .bitrate, 0xFFF3E4C0#32, true) := by
  decide                                                                                            -- V-D40
theorem test_hdrV25L1 : sized 0xFFE7DA00#32 = some (.ok, 224, 8000, 337, 1348) := by decide        -- V-D19
theorem test_hdrV25L2 : sized 0xFFE5DA00#32 = some (.ok, 144, 8000, 649, 2596) := by decide        -- V-D17
theorem test_hdrV25L3 : sized 0xFFE38800#32 = some (.ok, 64, 8000, 288, 1152) := by decide         -- V-D15
theorem test_hdrV25L3_short : failed 0xFFE3E000#32 = some (.invalidHeader, .bitrate, 0xFFE3E000#32, true) := by
  decide                                                                                            -- V-D42
theorem test_hdrSyncMismatch : failed 0xFFDB9064#32 = some (.invalidHeader, .sync, 0xFFDB9064#32, true) := by
  decide                                                                                            -- V-D25
theorem test_hdrVRes : failed 0xFFE80000#32 = some (.invalidHeader, .version, 0xFFE80000#32, true) := by
  decide                                                                                            -- V-D30
theorem test_hdrV1LRes : failed 0xFFF99064#32 = some (.invalidHeader, .layer, 0xFFF99064#32, true) := by
  decide                                                                                            -- V-D31
/-- The row of R72 for V2 with layer code 00. -/
theorem test_hdrV2LRes : failed 0xFFF00000#32 = some (.invalidHeader, .layer, 0xFFF00000#32, true) := by decide
theorem test_hdrV25LRes : failed 0xFFE00000#32 = some (.invalidHeader, .layer, 0xFFE00000#32, true) := by
  decide                                                                                            -- V-D32
theorem test_cause_order : failed 0xFFFFFFFF#32 = some (.invalidHeader, .sampleRate, 0xFFFFFFFF#32, true) := by
  decide                                                                                            -- V-D34

/-! ## Commands: V-C vectors -/

theorem test_start : (after (doneWith .ok .none 0xFFFB9064#32 7) (command 0b01#2 0#32)).map control
    = some (.scan, 0#2, 0#32, 0, .none, .none) := by decide                                         -- V-C1
theorem test_start_abandons : (after (collecting 2#2 0xFFFB#32 2) (command 0b01#2 0#32)).map control
    = some (.scan, 0#2, 0#32, 0, .none, .none) := by decide                                         -- V-C6
theorem test_nop : (after (collecting 2#2 0xFFFB#32 2) (command 0b00#2 0#32)).map control
    = some (.collect, 2#2, 0xFFFB#32, 2, .none, .none) := by decide                                 -- V-C2
theorem test_cmdReserved : (after State.reset (command 0b11#2 0#32)).map control
    = some (.idle, 0#2, 0#32, 0, .none, .none) := by decide                                         -- V-C3
theorem test_cmdReserved_program : refusal (runProgram State.reset [.reserved]) = some .illFormedProgram := by
  decide                                                                                            -- V-C3
/-- V-C4, every result register of V-D1. -/
theorem test_decode : (after State.reset (command 0b10#2 0xFFFB9064#32)).map (fun t => t.res)
    = some { ver := 0b11#2, lay := 0b01#2, prot := 1, crcEn := 0, bri := 9, sri := 0, pad := 0, priv := 0, mode := 0b01#2,
             modext := 0b10#2, copy := 0, orig := 1, emph := 0b00#2, brKbps := 128, srHz := 44100, slots := 104
             bytes := 416 } := by decide
theorem test_decode_keeps_count : (after (doneWith .ok .none 0xFFFB9064#32 7) (command 0b10#2 0xFFEB9064#32)).map control
    = some (.done, 0#2, 0xFFEB9064#32, 7, .invalidHeader, .version) := by decide                    -- V-C5

/-! ## Stream events: the rules' examples, V-L and V-E vectors -/

theorem test_byteSkip : (after (scanning 0) (stream false true false 0x00#8)).map control
    = some (.scan, 0#2, 0#32, 1, .none, .none) := by decide                                         -- R84's example
/-- V-L15's wrap: with W_COUNT 4, the byte after the fifteenth. -/
theorem test_count_wraps : (after { scanning 15 with cfg := { Config.default with wCount := 4 } }
    (stream false true false 0x00#8)).map (·.count) = some 0 := by decide
theorem test_byteLead : (after (scanning 3) (stream false true false 0xFF#8)).map control
    = some (.collect, 1#2, 0x000000FF#32, 4, .none, .none) := by decide                             -- R85's example
theorem test_byteLead_held_decode : (after (scanning 0)
    { command 0b10#2 0xFFFB9064#32 with stream := (stream false true false 0xFF#8).stream }).map control
    = some (.collect, 1#2, 0xFF#32, 1, .none, .none) := by decide                                   -- V-E2
theorem test_byteCollect : (after (collecting 1#2 0xFF#32 1) (stream false true false 0xFB#8)).map control
    = some (.collect, 2#2, 0x0000FFFB#32, 2, .none, .none) := by decide                             -- R86's example
theorem test_byteFinal : (after (collecting 3#2 0x00FFFB90#32 3) (stream false true true 0x64#8)).map control
    = some (.done, 0#2, 0xFFFB9064#32, 4, .ok, .none) := by decide                                  -- V-E4
theorem test_byteFinal_false_lead : (after (collecting 3#2 0x00FFFFFB#32 3) (stream false true false 0x90#8)).map control
    = some (.done, 0#2, 0xFFFFFB90#32, 4, .invalidHeader, .bitrate) := by decide                    -- V-L7
theorem test_eosScan : (after (scanning 3) (stream false false true 0#8)).map control
    = some (.done, 0#2, 0#32, 3, .syncNotFound, .noLead) := by decide                               -- V-L3
theorem test_eosCollect : (after (collecting 3#2 0x00FFFB90#32 3) (stream false false true 0#8)).map control
    = some (.done, 0#2, 0x00FFFB90#32, 3, .syncNotFound, .truncated) := by decide                   -- V-L5
theorem test_sErr : (after (collecting 1#2 0xFF#32 1) (stream true true false 0xFB#8)).map control
    = some (.done, 0#2, 0xFF#32, 1, .streamUnavailable, .none) := by decide                         -- V-E3
theorem test_sErr_scan : (after (scanning 2) (stream true false true 0#8)).map control
    = some (.done, 0#2, 0#32, 2, .streamUnavailable, .none) := by decide                            -- R90's example
theorem test_streamIgnored : (after State.reset (stream false true false 0xFF#8)).map control
    = some (.idle, 0#2, 0#32, 0, .none, .none) := by decide                                         -- V-E6
theorem test_streamIgnored_done : (after (doneWith .ok .none 0xFFFB9064#32 4) (stream true false true 0#8)).map control
    = some (.done, 0#2, 0xFFFB9064#32, 4, .ok, .none) := by decide                                  -- V-E8
theorem test_reset : (after (collecting 1#2 0xFF#32 1) { stream false true false 0xFB#8 with rst := true }).map control
    = some (.idle, 0#2, 0#32, 0, .none, .none) := by decide                                         -- V-E7

/-! ## Outputs: V-E, V-R -/

theorem test_start_beats_byte :
    let e := { command 0b01#2 0#32 with stream := (stream false true false 0xFF#8).stream }
    (outputs (scanning 0) e).cReady = true ∧ (outputs (scanning 0) e).sReady = false := by decide           -- V-E1
theorem test_held_decode_ready :
    let e := { command 0b10#2 0#32 with stream := (stream false true false 0xFF#8).stream }
    (outputs (scanning 0) e).cReady = false ∧ (outputs (scanning 0) e).sReady = true := by decide           -- V-E2
theorem test_reset_outputs : (outputs State.reset quiet).shown.done = false ∧ (outputs State.reset quiet).cReady = true ∧
    (outputs State.reset quiet).sReady = false := by decide                                                 -- V-R1

/-! ## The configuration (00_scope.md R6) -/

theorem test_config_default : configWf Config.default = true := by decide
theorem test_config_zero_rate :
    configWf { Config.default with srRom := { SrRom.default with v2 := [22050, 0, 16000] } } = false := by decide
theorem test_config_pinned_entry :
    configWf { Config.default with brRom := { BrRom.default with c1iii := BrRom.default.c1ii } } = false := by decide
theorem test_config_slots_fit : configWf { Config.default with wSlots := 9 } = false ∧
    configWf { Config.default with wSlots := 10 } = true := by decide                               -- R146: 649
/-- V-D40's §9 reading: 240 slots and 960 bytes. -/
theorem test_config_short_rows :
    let c := { Config.default with shortRows := [(.c2, .ii)], brRom := { BrRom.default with c2iii := BrRom.default.c2iii ++ [160] } }
    configWf c = true ∧ (match decode c 0xFFF3E4C0#32 with
      | .header h => some (frameLengthSlots h, frameSizeBytes h)
      | .invalid _ => none
      | .outsideRom => none) = some (240, 960) := by decide

/-! ## The source's duties (70_reset_and_hazards.md R186) -/

/-- A state with these duties. -/
def owing (s : State) (held : Option Byte) (eos err : LevelDuty) : State := { s with src := { held := held, eos := eos, err := err } }
/-- A level asserted, still to be kept and high at the last edge. -/
def kept : LevelDuty := { seen := true, keep := true, high := true }
/-- A level asserted in a locate that has completed since. -/
def spent : LevelDuty := { seen := true, keep := false, high := false }

theorem test_duty_data : refusal (step (at1 (owing State.reset (some 0x12#8) LevelDuty.none LevelDuty.none)
    (stream false true false 0x13#8))) = some .unstableStreamData := by decide
/-- R186 (a) excepts no edge: reset included. -/
theorem test_duty_data_at_reset : refusal (step (at1 (owing State.reset (some 0x12#8) LevelDuty.none LevelDuty.none)
    { stream false true false 0x13#8 with rst := true })) = some .unstableStreamData := by decide
theorem test_duty_eos_dropped : refusal (step (at1 (owing (scanning 0) none kept LevelDuty.none) quiet)) = some .eosDutyBroken := by
  decide
/-- R186 (b) before any START: `s_eos` asserted in IDLE and dropped there. -/
theorem test_duty_eos_dropped_idle : refusal (step (at1 (owing State.reset none kept LevelDuty.none) quiet))
    = some .eosDutyBroken := by decide
theorem test_duty_byte_after_err : refusal (step (at1 (owing State.reset none LevelDuty.none spent)
    (stream true true false 0x13#8))) = some .errDutyBroken := by decide
/-- Both levels asserted, `s_eos` kept and `s_err` dropped. -/
theorem test_duty_err_dropped_eos_kept : refusal (step (at1 (owing (scanning 0) none kept kept)
    (stream false false true 0#8))) = some .errDutyBroken := by decide
/-- The edge that accepts a START is itself still bound: the model's choice (log 6, DESIGN CHOICE). -/
theorem test_duty_start_edge : refusal (step (at1 (owing (scanning 0) none kept LevelDuty.none) (command 0b01#2 0#32)))
    = some .eosDutyBroken := by decide
/-- The duties after a reset that abandons a locate: `s_eos` stays owed until a START. -/
theorem test_duty_reset_keeps : (after (owing (scanning 0) none kept LevelDuty.none)
    { stream false false true 0#8 with rst := true }).map (·.src.eos) = some kept := by decide
theorem test_reset_outputs_in_stall : (outputs (collecting 1#2 0xFF#32 1) { quiet with rst := true, stall := true }).shown.raw
    = 0xFF#32 := by decide
theorem test_illFormedConfig : refusal (step { State.reset with cfg := { Config.default with wBr := 8 } })
    = some .illFormedConfig := by decide

/-! ## `locate`, program lines and program text (40_locator.md R95, 30_encoding.md R77, R78) -/

theorem test_locate_found : locate [0x00, 0x11, 0x22, 0xFF, 0xFB, 0x90, 0x64] .opened = (.found 0xFFFB9064#32, 7) := by decide  -- V-L1
theorem test_locate_truncated : locate [0x12, 0xFF] .eos = (.notFound .truncated, 2) := by decide           -- V-L13
theorem test_locate_remaining : remaining [0xFF, 0xFB, 0x90, 0x64, 0xFF, 0xFB, 0x90, 0x64] .opened
    = [0xFF, 0xFB, 0x90, 0x64] := by decide                                                                 -- V-L14
theorem test_locate_lines : locateLines [0xFF, 0xFF, 0xFB, 0x90, 0x64] .eos
    = [.start, .byte 0xFF, .byte 0xFF, .byte 0xFB, .byte 0x90] := by decide                                 -- V-L7
theorem test_line_refused : refusal (runLine State.reset (.byte 0x00#8)) = some .illFormedProgram ∧
    refusal (runLine (scanning 0) (.decode 0xFFFB9064#32)) = some .illFormedProgram ∧
    refusal (runLine (doneWith .syncNotFound .noLead 0#32 0) .eos) = some .illFormedProgram := by decide
theorem test_text_reset : assembleText ['R', 'E', 'S', 'E', 'T', ' ', ';', ' ', 'x', '\n', 'N', 'O', 'P'] = some [.reset, .nop] := by
  decide
theorem test_text_byte : assembleText ['B', 'Y', 'T', 'E', ' ', '0', 'x', 'F', 'b'] = some [.byte 0xFB#8] := by decide
theorem test_text_decode : assembleText ['D', 'E', 'C', 'O', 'D', 'E', ' ', '0', 'x', 'F', 'F', 'F', 'B', '9', '0', '6', '4']
    = some [.decode 0xFFFB9064#32] := by decide
theorem test_text_locate : assembleText ['L', 'O', 'C', 'A', 'T', 'E', ' ', 'F', 'F', ' ', 'F', 'B', ' ', 'E', 'O', 'S']
    = some [.start, .byte 0xFF#8, .byte 0xFB#8, .eos] := by decide
theorem test_text_feed : assembleText ['F', 'E', 'E', 'D', ' ', '0', '0', ' ', '1', '1'] = some [.byte 0x00#8, .byte 0x11#8] := by
  decide
theorem test_text_rejects : assembleText ['D', 'E', 'C', 'O', 'D', 'E'] = none := by decide

/-! ## Witnesses: each statement's hypotheses on concrete states, every clause -/

def someFields : HeaderFields := { noFields with prot := 1, bri := 9, orig := 1 }
/-- Free format, bitrate index 0. -/
def freeFields : HeaderFields := { noFields with pad := 1 }

theorem witness_StepRunsTheAcceptedEvent :
    (let s := at1 (scanning 0) (stream false true false 0xFF#8)
     configWf s.cfg = true ∧ s.inputs = stream false true false 0xFF#8 :: [] ∧
       brokenDuty s (stream false true false 0xFF#8) = none ∧
       select s (stream false true false 0xFF#8) = some (.byteLead false)) ∧
    (brokenDuty (at1 (scanning 0) quiet) quiet = none ∧ select (at1 (scanning 0) quiet) quiet = none) := by decide
theorem witness_StepRunsThePlacedTableWord :
    configWf State.reset.cfg = true ∧ decodeTableWord 32 0xFFFA0000 = some (.hdrV1L3 noFields) ∧
    decodeTableWord 40 0x200000000 = some (.decode 0#32) ∧ decodeTableWord 16 0x100 = some (.eosScan 0#8) ∧
    decodeTableWord 16 0 = some (.streamIgnored { sErr := false, sValid := false, sEos := false, sData := 0#8 }) ∧
    decodeTableWord 8 1 = some .reset := by decide
theorem witness_EventPrecedence :
    resetEdge.rst = true ∧ ({ quiet with stall := true }.rst = false ∧ { quiet with stall := true }.stall = true) ∧
    ((command 0b01#2 0#32).rst = false ∧ (command 0b01#2 0#32).stall = false ∧ (command 0b01#2 0#32).cValid = true ∧
      cReady (scanning 0) (command 0b01#2 0#32) = true) ∧
    (¬ ((command 0b10#2 0#32).cValid = true ∧ cReady (scanning 0) (command 0b10#2 0#32) = true)) ∧
    ¬ ((stream true true true 0#8).cValid = true ∧ cReady (collecting 3#2 0#32 3) (stream true true true 0#8) = true) ∧
    ((scanning 0).lstate = .scan ∧ (collecting 3#2 0#32 3).lstate = .collect ∧ (stream true true true 0#8).stream.sErr = true) ∧
    ((stream false true true 0xFF#8).stream.sErr = false ∧ (stream false true true 0xFF#8).stream.sValid = true) ∧
    ((stream false false true 0#8).stream.sValid = false ∧ (stream false false true 0#8).stream.sEos = true) ∧
    (quiet.stream.sErr = false ∧ quiet.stream.sValid = false ∧ quiet.stream.sEos = false) ∧
    (State.reset.lstate = .idle ∧ (doneWith .ok .none 0#32 0).lstate = .done) := by decide
theorem witness_HandshakeOutputs : quiet.stall = false := by decide
theorem witness_OutputsShowTheRegisters : quiet.stall = false ∧ { resetEdge with stall := true }.rst = true := by decide
theorem witness_ByteTakenExactlyWhenReady : quiet.rst = false ∧
    takesByte (select (scanning 0) (stream false true false 0#8)) = true ∧
    takesByte (select (scanning 0) (stream true true false 0#8)) = false := by decide
theorem witness_StallCycleIsANoOp :
    let e := { stream false true false 0xFF#8 with stall := true }
    configWf (at1 (scanning 0) e).cfg = true ∧ (at1 (scanning 0) e).inputs = e :: [] ∧ brokenDuty (at1 (scanning 0) e) e = none ∧
      e.rst = false ∧ e.stall = true := by decide
theorem witness_BrokenDutiesAreRefused :
    (let s := owing (scanning 0) (some 0x12#8) LevelDuty.none LevelDuty.none
     configWf s.cfg = true ∧ BreaksDataDuty s (stream false true false 0x13#8)) ∧
    (let s := owing State.reset none spent LevelDuty.none
     ¬ BreaksDataDuty s (stream false true true 0#8) ∧ BreaksEosDuty s (stream false true true 0#8)) ∧
    (let s := owing (scanning 0) none kept LevelDuty.none
     ¬ BreaksDataDuty s quiet ∧ BreaksEosDuty s quiet) ∧
    (let s := owing (scanning 0) none kept kept
     ¬ BreaksDataDuty s (stream false false true 0#8) ∧ ¬ BreaksEosDuty s (stream false false true 0#8) ∧
       BreaksErrDuty s (stream false false true 0#8)) ∧
    (let s := owing (collecting 1#2 0xFF#32 1) none LevelDuty.none spent
     ¬ BreaksDataDuty s (stream true true false 0#8) ∧ ¬ BreaksEosDuty s (stream true true false 0#8) ∧
       BreaksErrDuty s (stream true true false 0#8)) := by
  refine ⟨⟨by decide, 0x12#8, by decide⟩, ⟨?_, ?_⟩, ⟨?_, ?_⟩, ⟨?_, ?_, ?_⟩, ?_, ?_, ?_⟩ <;>
    simp [BreaksDataDuty, BreaksEosDuty, BreaksErrDuty, owing, kept, spent, LevelDuty.none, stream, quiet]
/-- The state of the point that BrokenDutiesAreRefused was widened for is reached: a NOP takes the cycle in SCAN while both
levels are high. -/
theorem witness_both_levels : (after (scanning 0) { command 0b00#2 0#32 with stream := (stream true false true 0#8).stream }).map
    (fun t => (t.lstate, t.src)) = some (.scan, { held := none, eos := kept, err := kept }) := by decide
/-- A START, a completion, and neither. -/
theorem witness_DutiesFollowTheEdges :
    (at1 (scanning 0) (stream false true true 0x12#8)).inputs = stream false true true 0x12#8 :: [] ∧
    (after (scanning 0) (stream false true true 0x12#8)).map (·.src) = some { held := none, eos := kept, err := LevelDuty.none } ∧
    (after State.reset (stream true true false 0x12#8)).map (·.src)
      = some { held := some 0x12#8, eos := LevelDuty.none, err := kept } ∧
    (after (scanning 0) (stream false false true 0#8)).map (·.src)
      = some { held := none, eos := { kept with keep := false }, err := LevelDuty.none } ∧
    (after (owing (scanning 0) none kept LevelDuty.none) { command 0b01#2 0#32 with stream := (stream false false true 0#8).stream }).map
      (·.src) = some Duties.none := by decide
theorem witness_StepAnswersUnlessADutyIsBroken : configWf State.reset.cfg = true ∧ State.reset.inputs = [] ∧
    brokenDuty (at1 (scanning 0) quiet) quiet = none := by decide
theorem witness_WellFormedConfiguration : configWf Config.default = true ∧ configWf { Config.default with wBr := 8 } = false := by
  decide
theorem witness_ResetStep : configWf (at1 (scanning 0) resetEdge).cfg = true ∧
    (at1 (scanning 0) resetEdge).inputs = resetEdge :: [] ∧ brokenDuty (at1 (scanning 0) resetEdge) resetEdge = none ∧
    resetEdge.rst = true ∧ quiet.stall = false := by decide
theorem witness_CommandTurn (op : BitVec 2) : CommandTurn (command op 0xFFFB9064#32) op := ⟨rfl, rfl, rfl, rfl⟩
/-- For ReservedCommandChangesNothing: a program that runs, before the reserved line. -/
theorem witness_ReservedCommandChangesNothing : runProgram State.reset [] = .next State.reset := by rfl
/-- For DecodeCommitsItsWord: both outcomes, from IDLE and from DONE. -/
theorem witness_DecodeCommitsItsWord :
    configWf State.reset.cfg = true ∧ State.reset.lstate = .idle ∧ (doneWith .ok .none 0#32 0).lstate = .done ∧
    (∃ h, decode Config.default 0xFFFB9064#32 = .header h) ∧ decode Config.default 0xFFEB9064#32 = .invalid .version ∧
    (scanning 0).lstate = .scan ∧ (collecting 1#2 0xFF#32 1).lstate = .collect := by
  refine ⟨by decide, rfl, rfl, ⟨_, rfl⟩, rfl, rfl, rfl⟩
/-- For DecodeIsHeldDuringALocate. -/
theorem witness_DecodeIsHeldDuringALocate : (scanning 0).lstate = .scan ∧ (collecting 1#2 0xFF#32 1).lstate = .collect := by decide
/-- For every stream statement: the stream's turn, in each control state, also past a held DECODE. -/
theorem witness_StreamTurn : StreamTurn (scanning 0) (stream false true false 0x00#8) ∧
    StreamTurn (scanning 0) { command 0b10#2 0#32 with stream := (stream true true true 0xFF#8).stream } ∧
    StreamTurn (collecting 3#2 0x00FFFB90#32 3) (stream false false true 0#8) ∧ StreamTurn State.reset (stream true true true 0#8) := by
  refine ⟨⟨rfl, rfl, ?_⟩, ⟨rfl, rfl, ?_⟩, ⟨rfl, rfl, ?_⟩, ⟨rfl, rfl, ?_⟩⟩ <;> decide
theorem witness_ByteSkipOnlyCounts : (scanning 0).lstate = .scan ∧ (0x00#8 : Byte) ≠ 0xFF#8 ∧ (0xFE#8 : Byte) ≠ 0xFF#8 ∧
    (stream false true false 0xFE#8).stream.sValid = true := by decide
theorem witness_LeadByteBeginsAHeader : (scanning 0).lstate = .scan ∧ (stream false true false 0xFF#8).stream.sData = 0xFF#8 := by
  decide
theorem witness_CollectShiftsTheByteIn : (collecting 1#2 0xFF#32 1).lstate = .collect ∧ (collecting 1#2 0xFF#32 1).ncol = 1#2 ∧
    (collecting 2#2 0xFFFB#32 2).ncol = 2#2 := by decide
/-- For FinalByteCommits: both outcomes of the committed word. -/
theorem witness_FinalByteCommits :
    configWf (collecting 3#2 0x00FFFB90#32 3).cfg = true ∧ (collecting 3#2 0x00FFFB90#32 3).lstate = .collect ∧
    (collecting 3#2 0x00FFFB90#32 3).ncol = 3#2 ∧
    BitVec.ofNat 32 ((0x00FFFB90#32).toNat * 256 + (0x64#8).toNat) = 0xFFFB9064#32 ∧
    (∃ h, decode Config.default 0xFFFB9064#32 = .header h) ∧ decode Config.default 0xFFFBF064#32 = .invalid .bitrate := by
  refine ⟨by decide, rfl, rfl, rfl, ⟨_, rfl⟩, rfl⟩
theorem witness_EndOfStreamCompletes : (scanning 0).lstate = .scan ∧ (collecting 1#2 0xFF#32 1).lstate = .collect ∧
    (stream false false true 0#8).stream.sValid = false ∧ (stream false false true 0#8).stream.sEos = true := by decide
theorem witness_SourceErrorCompletes : (scanning 0).lstate = .scan ∧ (collecting 3#2 0xFF#32 3).lstate = .collect ∧
    (stream true true true 0xFF#8).stream.sErr = true := by decide
theorem witness_StreamIsIgnoredOutsideALocate : State.reset.lstate = .idle ∧ (doneWith .ok .none 0#32 0).lstate = .done := by decide
theorem witness_HeaderIsAssembledBigEndian : configWf (scanning 7).cfg = true ∧ (scanning 7).src = Duties.none ∧
    (scanning 7).lstate = .scan := by decide
theorem witness_LocateFindsTheFirstLead : (∀ b ∈ [0x00#8, 0xFE#8], b ≠ 0xFF#8) ∧ ([0xFF#8, 0xFF#8] : List Byte).length < 3 := by decide
theorem witness_LocateRunsAsThePureFunction : configWf State.reset.cfg = true ∧ State.reset.src = Duties.none := by decide
theorem witness_configWf : configWf Config.default = true := by decide
/-- For DecodedFieldsAreTheWordsBits, FieldRoundTrip's second clause, FrameSizeLaws, ProductBound, DefaultRomRanges. -/
theorem witness_decode : ∃ h, decode Config.default 0xFFFB9064#32 = .header h ∧ h.bitrateIndex ≠ 0#4 ∧ h.mpegVersion = .v1 ∧
    Config.default.wBr = 9 := ⟨_, rfl, by decide, rfl, rfl⟩
/-- For DecodedFieldsAreTheWordsBits: every channel-mode code and every emphasis code. -/
theorem witness_codes : ∀ c : BitVec 2,
    (∃ h, decode Config.default (0xFFFB9000#32 ||| (c.setWidth 32 <<< 6)) = .header h) ∧
    (0xFFFB9000#32 ||| (c.setWidth 32 <<< 6)).extractLsb 7 6 = c ∧
    (∃ h, decode Config.default (0xFFFB9000#32 ||| c.setWidth 32) = .header h) ∧
    (0xFFFB9000#32 ||| c.setWidth 32).extractLsb 1 0 = c := by
  have h : ∀ c : BitVec 2, c = 0#2 ∨ c = 1#2 ∨ c = 2#2 ∨ c = 3#2 := by decide
  intro c
  rcases h c with rfl | rfl | rfl | rfl <;> exact ⟨⟨_, rfl⟩, by decide, ⟨_, rfl⟩, by decide⟩
theorem witness_decode_layerI : ∃ h, decode Config.default 0xFFFFE000#32 = .header h ∧
    (0xFFFFE000#32).extractLsb 18 17 = 0b11#2 := ⟨_, rfl, by decide⟩
/-- The last legal index of a short row, and of a long one. -/
theorem witness_FieldRoundTrip : configWf Config.default = true ∧ noFields.sri ≠ 0b11#2 ∧
    (13#4).toNat < Config.default.rowLen .c2 .iii ∧ (14#4).toNat < Config.default.rowLen .c1 .iii := by decide
theorem witness_DecodeIsPure : configWf State.reset.cfg = true ∧ (doneWith .ok .none 0xFFFB9064#32 7).cfg = State.reset.cfg ∧
    State.reset.lstate = .idle ∧ (doneWith .ok .none 0xFFFB9064#32 7).lstate = .done := by decide
theorem witness_ScenarioAForEveryConfiguration : configWf State.reset.cfg = true ∧ State.reset.lstate = .idle ∧
    (doneWith .ok .none 0#32 0).lstate = .done := by decide
theorem witness_HeaderClassCompletesOk : someFields.sri ≠ 0b11#2 ∧
    someFields.bri.toNat < State.reset.cfg.rowLen Version.v1.vclass .iii ∧
    State.reset.cfg.readBr Version.v1.vclass .iii someFields.bri.toNat = some 128 ∧
    State.reset.cfg.readSr .v1 someFields.sri.toNat = some 44100 := by decide
theorem witness_HeaderClassFailsItsIndices : configWf State.reset.cfg = true ∧ ({ noFields with sri := 3 } : HeaderFields).sri = 0b11#2 ∧
    ({ noFields with bri := 15 } : HeaderFields).sri ≠ 0b11#2 ∧ ({ noFields with bri := 15 } : HeaderFields).bri = 15#4 ∧
    ({ noFields with bri := 14 } : HeaderFields).bri = 14#4 ∧ (Version.v25.vclass, Layer.iii) ∈ State.reset.cfg.shortRows := by
  decide
theorem witness_ReservedClassesFail : encode (.hdrV25LRes noFields) = .header 0xFFE00000#32 ∧
    encode (.hdrVRes 0b11#2 noFields) = .header 0xFFEE0000#32 ∧ (0xFFDFFFFF#32 &&& 0xFFE00000#32 : Word) ≠ 0xFFE00000#32 := by decide
theorem witness_CommitIsTheHeaderClass : State.reset.lstate = .idle ∧ (doneWith .ok .none 0#32 0).lstate = .done ∧
    (collecting 3#2 0xFFFB90#32 3).lstate = .collect ∧ (collecting 3#2 0xFFFB90#32 3).ncol = 3#2 := by decide
theorem witness_FreeFormat : configWf Config.default = true ∧ freeFields.sri ≠ 0b11#2 ∧ freeFields.bri = 0#4 ∧
    ∃ h, decode Config.default 0xFFFB0200#32 = .header h ∧ h.bitrateKbps = 0 := ⟨by decide, by decide, rfl, _, rfl, rfl⟩
/-- For CountChangesOnlyByTakes and StatusIsNeverRead. -/
theorem witness_exec : exec (.byteSkip false 0#8) (scanning 0) = .next (scanning 0).take ∧ exec (.start 0#32) (scanning 9) =
    .next (scanning 9).arm := ⟨rfl, rfl⟩
/-- For RomsNeverChange and EveryStepKeepsTheInvariant (with ResetMeetsTheInvariant). -/
theorem witness_step :
    (after State.reset (command 0b01#2 0#32)).map control = some (.scan, 0#2, 0#32, 0, .none, .none) := by decide
theorem witness_OnlyStartDecodeResetActInDone : (doneWith .ok .none 0#32 0).lstate = .done ∧
    (after (doneWith .ok .none 0#32 0) (command 0b01#2 0#32)).map (·.lstate) = some .scan ∧
    (after (doneWith .ok .none 0#32 0) (stream true false true 0#8)).map (·.lstate) = some .done := by decide
theorem witness_CompletionIsPrecise : (collecting 3#2 0x00FFFB90#32 3).lstate ≠ .done ∧
    (after (collecting 3#2 0x00FFFB90#32 3) (stream false true false 0x64#8)).map (·.lstate) = some .done ∧
    (after (scanning 0) (stream false false true 0#8)).map (·.lstate) = some .done := by decide
theorem witness_EveryStepKeepsTheInvariant : Inv State.reset where
  cfgWf := by decide
  control := ⟨by decide, by decide, by decide, by decide, by decide⟩
  raw := ⟨by decide, by decide⟩
  result := ⟨nofun, by decide, nofun⟩
  widths := ⟨by decide, by decide, by decide, by decide, by decide⟩
/-- For AcceptedLinesRun: an accepted line, and one that is not. -/
theorem witness_AcceptedLinesRun : configWf State.reset.cfg = true ∧ Quiescent State.reset ∧ Line.accepted State.reset .start = true ∧
    runProgram State.reset [] = .next State.reset ∧ Line.accepted State.reset .eos = false :=
  ⟨by decide, ⟨rfl, rfl, rfl, by decide⟩, rfl, rfl, rfl⟩
theorem witness_DecodeOfEncode : (Instr.byteSkip true 0xFE#8).wf = true ∧ (Instr.byteSkip true 0xFE#8).appliesIn .scan 0#2 = true ∧
    (Instr.byteCollect true 0xFF#8).appliesIn .collect 2#2 = true ∧ (Instr.byteFinal true 0xFF#8).appliesIn .collect 3#2 = true ∧
    (Instr.hdrSyncMismatch 0#32).wf = true ∧ (Instr.reset).appliesIn .done 0#2 = true := by decide
theorem witness_EncodeOfDecode : decodeAt .scan 0#2 (.stream 0b0_1_0_11111111#11) = .ok (.byteLead false) := by rfl

end Sys2Proof.Tests
end

section
/-! SUPPORT. What a well-formed configuration is (00_scope.md R6), read off the tests of configWf, and Scenario A's word
(95_test_vectors.md S-A) under each of them. -/

namespace Sys2Proof.Machine

/-! ## The tests of a configuration, as propositions -/

theorem brRowWf_iff (c : Config) (k : VClass) (l : Layer) :
    brRowWf c k l = true ↔ (c.brRom.row k l).length = c.rowLen k l ∧ (∀ kbps ∈ c.brRom.row k l, kbps < 2 ^ c.wBr) ∧
      c.readBr k l 0 = some 0 := by
  simp [brRowWf, Config.readBr, and_assoc]

theorem srRowWf_iff (c : Config) (v : Version) :
    srRowWf c v = true ↔ (c.srRom.row v).length = 3 ∧ ∀ hz ∈ c.srRom.row v, hz ≠ 0 ∧ hz < 2 ^ c.wSr := by
  simp [srRowWf]

theorem sizesFit_iff (c : Config) (v : Version) (l : Layer) :
    sizesFit c v l = true ↔ ∀ hz ∈ c.srRom.row v, ∀ kbps ∈ c.brRom.row v.vclass l,
      slotsOf l kbps hz true < 2 ^ c.wSlots ∧ 4 * slotsOf l kbps hz true < 2 ^ c.wBytes := by
  simp [sizesFit]

/-- The converse of `configWf_parts`. -/
theorem configWf_of_parts {c : Config} (hbr : ∀ k l, brRowWf c k l = true) (hsr : ∀ v, srRowWf c v = true)
    (h128 : c.readBr .c1 .iii 9 = some 128) (h44100 : c.readSr .v1 0 = some 44100)
    (hfit : ∀ v l, sizesFit c v l = true) : configWf c = true := by
  simp only [configWf, Bool.and_eq_true, List.all_eq_true, beq_iff_eq]
  exact ⟨⟨⟨⟨fun k _ l _ => hbr k l, fun v _ => hsr v⟩, h128⟩, h44100⟩, fun v _ l _ => hfit v l⟩

/-! ## The headers a configuration admits -/

/-- `decodeRest` succeeds on fields whose two remaining checks pass and whose ROM reads answer (41_decoder.md R101). -/
theorem decodeRest_of_reads {c : Config} {v : Version} {l : Layer} {f : HeaderFields} {kbps hz : Nat} (hs : f.sri ≠ 0b11#2)
    (hb : f.bri.toNat < c.rowLen v.vclass l) (hbr : c.readBr v.vclass l f.bri.toNat = some kbps)
    (hsr : c.readSr v f.sri.toNat = some hz) : decodeRest c v l f = .header (frameHeader v l f kbps hz) := by
  simp only [decodeRest, if_neg hs, hsr, if_neg (Nat.not_le.2 hb), hbr]

/-- Every valid header's sizes fit SLOTS and BYTES under a well-formed configuration (42_framesize.md R146). -/
theorem frameSizes_lt {c : Config} (hc : configWf c = true) {w : Word} {h : FrameHeader} (e : decode c w = .header h) :
    frameLengthSlots h < 2 ^ c.wSlots ∧ frameSizeBytes h < 2 ^ c.wBytes := by
  obtain ⟨v, l, kbps, hz, _, _, hbr, hsr, rfl, _, _⟩ := decode_header e
  exact sizes_lt hc (readSr_mem hsr) (readBr_mem hbr) (decide ((headerFields w).pad = 1#1))

/-- The fields of a padded header with the given ROM indices, every other field 0. -/
def paddedFields (bri : BitVec 4) (sri : BitVec 2) : HeaderFields where
  prot := 0
  bri := bri
  sri := sri
  pad := 1
  priv := 0
  mode := 0
  modext := 0
  copy := 0
  orig := 0
  emph := 0

/-- With rows of the lengths of R31, each pair of ROM entries is what some padded header reads: a bitrate index below
ROWLEN fits its four bits, a sample-rate index below 3 its two. -/
theorem exists_padded_header {c : Config} {v : Version} {l : Layer}
    (hbl : (c.brRom.row v.vclass l).length = c.rowLen v.vclass l) (hsl : (c.srRom.row v).length = 3) {kbps hz : Nat}
    (hk : kbps ∈ c.brRom.row v.vclass l) (hh : hz ∈ c.srRom.row v) :
    ∃ w h, decode c w = .header h ∧ frameLengthSlots h = slotsOf l kbps hz true := by
  obtain ⟨i, hi, hik⟩ := List.getElem_of_mem hk
  obtain ⟨j, hj, hjh⟩ := List.getElem_of_mem hh
  have hi_lt : i < 2 ^ 4 := by have := rowLen_cases c v.vclass l; omega
  have hj_lt : j < 2 ^ 2 := by omega
  have hj_valid : BitVec.ofNatLT j hj_lt ≠ 0b11#2 := fun h => by
    have h3 : j = 3 := congrArg BitVec.toNat h
    omega
  exact ⟨headerWord syncPattern v.code l.code (paddedFields (BitVec.ofNatLT i hi_lt) (BitVec.ofNatLT j hj_lt)), _,
    (decode_headerWord c v l _).trans (decodeRest_of_reads hj_valid (hbl ▸ hi)
      (List.getElem?_eq_some_iff.2 ⟨hi, hik⟩) (List.getElem?_eq_some_iff.2 ⟨hj, hjh⟩)), rfl⟩

/-- The test of the frame sizes holds where every valid header's sizes fit: the converse of `frameSizes_lt`. -/
theorem sizesFit_of_headers {c : Config} (hbl : ∀ k l, (c.brRom.row k l).length = c.rowLen k l)
    (hsl : ∀ v, (c.srRom.row v).length = 3)
    (hfit : ∀ w h, decode c w = .header h → frameLengthSlots h < 2 ^ c.wSlots ∧ frameSizeBytes h < 2 ^ c.wBytes)
    (v : Version) (l : Layer) : sizesFit c v l = true := by
  refine (sizesFit_iff c v l).2 fun hz hh kbps hk => ?_
  obtain ⟨w, h, hd, hslots⟩ := exists_padded_header (hbl v.vclass l) (hsl v) hk hh
  have hlt := hfit w h hd
  rwa [frameSizeBytes, hslots] at hlt

/-! ## DECODE of Scenario A's word -/

/-- Outside a locate DECODE commits its word (41_decoder.md R126). -/
theorem exec_decode_outside_locate {s : State} (w : Word) (hs : s.lstate = .idle ∨ s.lstate = .done) :
    exec (.decode w) s = commit w s := by
  rcases hs with hs | hs <;> simp [exec, execDecode, whenAccepted, locating, hs]

/-- The commit of a word that decodes completes with OK (41_decoder.md R125). -/
theorem commit_of_header {s : State} {w : Word} {h : FrameHeader} (e : decode s.cfg w = .header h) :
    commit w s = .next ((s.setRaw w).complete .ok .none (results w h)) := by
  rw [commit, e]; rfl

/-- The fields of Scenario A's word below its layer code. -/
def scenarioAFields : HeaderFields where
  prot := 1
  bri := 9
  sri := 0
  pad := 0
  priv := 0
  mode := 0b01
  modext := 0b10
  copy := 0
  orig := 1
  emph := 0

theorem headerWord_scenarioA : headerWord syncPattern Version.v1.code Layer.iii.code scenarioAFields = 0xFFFB9064#32 := by
  decide

/-- Scenario A's word reads exactly the two ROM entries that R6 pins. -/
theorem decode_scenarioA {c : Config} (h : configWf c = true) :
    decode c 0xFFFB9064#32 = .header (frameHeader .v1 .iii scenarioAFields 128 44100) := by
  obtain ⟨_, _, h128, h44100, _⟩ := configWf_parts h
  have hb : scenarioAFields.bri.toNat < c.rowLen .c1 .iii := by
    have h9 : scenarioAFields.bri.toNat = 9 := rfl
    have := rowLen_cases c .c1 .iii
    omega
  rw [← headerWord_scenarioA, decode_headerWord]
  exact decodeRest_of_reads (by decide) hb h128 h44100

end Sys2Proof.Machine

namespace Sys2Proof.Proofs

open Sys2Proof.Machine

/-- Settles O11: each test of `configWf` is one condition of R6 or R31. The sizes are the case that needs an argument:
every pair of ROM entries is read by some valid padded header, and padding only adds. -/
theorem wellFormedConfiguration : Obligations.WellFormedConfiguration := by
  refine ⟨fun c => ⟨fun h => ?_, ?_⟩, fun s h => ?_, by decide⟩
  · obtain ⟨_, _, h128, h44100, _⟩ := configWf_parts h
    exact ⟨brRow_length h, srRow_length h, fun _ _ => srRow_bounds h, fun _ _ _ => brRow_lt h, readBr_zero h, h128, h44100,
      fun _ _ => frameSizes_lt h⟩
  · rintro ⟨hbl, hsl, hhz, hkbps, hzero, h128, h44100, hfit⟩
    exact configWf_of_parts (fun k l => (brRowWf_iff c k l).2 ⟨hbl k l, hkbps k l, hzero k l⟩)
      (fun v => (srRowWf_iff c v).2 ⟨hsl v, hhz v⟩) h128 h44100 (sizesFit_of_headers hbl hsl hfit)
  · simp [step, h]

/-- Settles O36: the word reads the two pinned entries only, so its results hold under every well-formed configuration. -/
theorem scenarioAForEveryConfiguration : Obligations.ScenarioAForEveryConfiguration := by
  intro s hc hs
  rw [exec_decode_outside_locate _ hs, commit_of_header (decode_scenarioA hc), ← headerWord_scenarioA, results_headerWord]
  rfl

end Sys2Proof.Proofs
end

section
/-! SUPPORT. The invariant of a run (10_state.md R37), one lemma per operation of the block: which states meet it outside
DONE, and what each way into DONE leaves. -/

namespace Sys2Proof.Machine

/-! ## What the invariant asks for, and gives, outside DONE -/

/-- The invariant speaks of registers only. -/
theorem Inv.of_sameRegisters {s t : State} (hs : Inv s) (h : SameRegisters s t) : Inv t := by
  obtain ⟨cfg, lstate, ncol, raw, count, status, cause, res, src, inputs⟩ := t
  obtain ⟨rfl, rfl, rfl, rfl, rfl, rfl, rfl, rfl⟩ := h
  obtain ⟨hcfg, ⟨h1, h2, h3, h4, h5⟩, ⟨h6, h7⟩, ⟨h8, h9, h10⟩, ⟨h11, h12, h13, h14, h15⟩⟩ := hs
  exact ⟨hcfg, ⟨h1, h2, h3, h4, h5⟩, ⟨h6, h7⟩, ⟨h8, h9, h10⟩, ⟨h11, h12, h13, h14, h15⟩⟩

/-- Results that are 0 fit every width (00_scope.md R6). -/
theorem widthInv_of_zero {s : State} (hc : s.count < 2 ^ s.cfg.wCount) (hr : s.res = Results.zero) : WidthInv s := by
  refine ⟨hc, ?_, ?_, ?_, ?_⟩ <;> rw [hr] <;> exact Nat.two_pow_pos _

/-- Outside DONE the invariant comes down to the outcome registers cleared, NCOL with LSTATE, and RAW (R26, R37). -/
theorem inv_of_ne_done {s : State} (hcfg : configWf s.cfg = true) (hl : s.lstate ≠ .done)
    (hn : s.lstate = .collect ↔ s.ncol ≠ 0#2) (hst : s.status = .none) (hca : s.cause = .none)
    (hr : s.res = Results.zero) (hc : s.count < 2 ^ s.cfg.wCount) (hraw : RawInv s) : Inv s where
  cfgWf := hcfg
  control := ⟨hn, by simp [hst, hl], fun _ => hca, by simp [hst], by simp [hst]⟩
  raw := hraw
  result := ⟨by simp [hst], fun _ => hr, by simp [hst]⟩
  widths := widthInv_of_zero hc hr

/-- The converse of `inv_of_ne_done`, for the outcome registers (R37, R27). -/
theorem Inv.outcome_clear {s : State} (h : Inv s) (hl : s.lstate ≠ .done) :
    s.status = .none ∧ s.cause = .none ∧ s.res = Results.zero := by
  have hst : s.status = .none := h.control.statusDone.2 hl
  exact ⟨hst, h.control.causeOfNone (.inl hst), h.result.zeroOtherwise (by simp [hst])⟩

/-! ## Reset, START and the bytes that complete nothing -/

theorem inv_resetRegisters {s : State} (hc : configWf s.cfg = true) : Inv s.resetRegisters :=
  inv_of_ne_done hc nofun (by simp) rfl rfl rfl (Nat.two_pow_pos _) ⟨fun _ => rfl, nofun⟩

theorem inv_arm {s : State} (hc : configWf s.cfg = true) : Inv s.arm :=
  inv_of_ne_done hc nofun (by simp) rfl rfl rfl (Nat.two_pow_pos _) ⟨fun _ => rfl, nofun⟩

/-- COUNT is modulo 2^W_COUNT (40_locator.md R93). -/
theorem take_count_lt (s : State) : s.take.count < 2 ^ s.cfg.wCount := Nat.mod_lt _ (Nat.two_pow_pos _)

/-- A taken byte moves COUNT only, and that within its width. -/
theorem Inv.take {s : State} (h : Inv s) : Inv s.take where
  cfgWf := h.cfgWf
  control := ⟨h.control.ncolRange, h.control.statusDone, h.control.causeOfNone, h.control.causeOfSyncNotFound,
    h.control.causeOfInvalid⟩
  raw := ⟨h.raw.beforeLead, h.raw.partialHeader⟩
  result := ⟨h.result.okHeader, h.result.zeroOtherwise, h.result.invalidCause⟩
  widths := ⟨take_count_lt s, h.widths.brKbps, h.widths.srHz, h.widths.slots, h.widths.bytes⟩

/-- Collecting a byte that leaves `n` of them in RAW, led by 0xFF (R26). -/
theorem Inv.collect {s : State} (h : Inv s) (hl : s.lstate ≠ .done) {n : BitVec 2} {w : Word} (hn : n ≠ 0#2)
    (hw : w.toNat / 2 ^ (8 * (n.toNat - 1)) = 0xFF) : Inv (s.collect n w) := by
  obtain ⟨hst, hca, hr⟩ := h.outcome_clear hl
  exact inv_of_ne_done h.cfgWf nofun (by simp [hn]) hst hca hr h.widths.count
    ⟨by simp [hca], fun _ => hw⟩

/-- A byte shifted in behind one or two others leaves the lead byte in front: nothing leaves the word (40_locator.md R86). -/
theorem shiftIn_led {r : Word} {n : BitVec 2} (b : Byte) (hn0 : n ≠ 0#2) (hn3 : n ≠ 3#2)
    (hr : r.toNat / 2 ^ (8 * (n.toNat - 1)) = 0xFF) :
    n + 1#2 ≠ 0#2 ∧ (shiftIn r b).toNat / 2 ^ (8 * ((n + 1#2).toNat - 1)) = 0xFF := by
  have hn : ∀ n : BitVec 2, n ≠ 0#2 → n ≠ 3#2 → n = 1#2 ∨ n = 2#2 := by decide
  have hb := b.isLt
  rw [shiftIn_eq, BitVec.toNat_ofNat]
  rcases hn n hn0 hn3 with rfl | rfl
  · have hr : r.toNat / 1 = 0xFF := hr
    exact ⟨by decide, show (r.toNat * 256 + b.toNat) % 2 ^ 32 / 256 = 0xFF by omega⟩
  · have hr : r.toNat / 256 = 0xFF := hr
    exact ⟨by decide, show (r.toNat * 256 + b.toNat) % 2 ^ 32 / 65536 = 0xFF by omega⟩

/-! ## The ways into DONE -/

/-- A locate that ends without a header: STATUS and CAUSE as R88 to R90 pair them, NO_LEAD only where no byte is in RAW. -/
theorem Inv.complete_without_header {s : State} (h : Inv s) {st : Status} {c : Cause}
    (hout : (st = .syncNotFound ∧ (c = .noLead ∧ s.raw = 0#32 ∨ c = .truncated)) ∨
      (st = .streamUnavailable ∧ c = .none)) : Inv (s.complete st c Results.zero) where
  cfgWf := h.cfgWf
  control := by rcases hout with ⟨rfl, ⟨rfl, _⟩ | rfl⟩ | ⟨rfl, rfl⟩ <;> constructor <;> simp
  raw := ⟨by rcases hout with ⟨rfl, ⟨rfl, hz⟩ | rfl⟩ | ⟨rfl, rfl⟩ <;> simp [*], nofun⟩
  result := by rcases hout with ⟨rfl, _⟩ | ⟨rfl, _⟩ <;> constructor <;> simp
  widths := widthInv_of_zero h.widths.count rfl

/-- The five causes of an INVALID_HEADER (60_exceptions.md R162). -/
theorem decode_invalid_cause {c : Config} (hc : configWf c = true) {w : Word} {x : Cause} (e : decode c w = .invalid x) :
    x = .sync ∨ x = .version ∨ x = .layer ∨ x = .sampleRate ∨ x = .bitrate := by
  rcases decode_cases c w with ⟨_, d⟩ | ⟨_, _, d⟩ | ⟨_, _, _, d⟩ | ⟨v, l, _, _, _, _, d⟩ <;> rw [d] at e
  · cases e; simp
  · cases e; simp
  · cases e; simp
  · rcases decodeRest_cases hc v l (headerFields w) with ⟨_, d⟩ | ⟨_, _, d⟩ | ⟨_, _, _, _, _, _, _, _, d⟩ <;>
      rw [d] at e <;> cases e <;> simp

/-- The ROM values and sizes of a decoded word fit their registers (00_scope.md R6). -/
theorem widthInv_of_header {s : State} (hcfg : configWf s.cfg = true) (hc : s.count < 2 ^ s.cfg.wCount) {w : Word}
    {h : FrameHeader} (hd : decode s.cfg w = .header h) (hr : s.res = results w h) : WidthInv s := by
  obtain ⟨hslots, hbytes⟩ := frameSizes_lt hcfg hd
  obtain ⟨v, l, kbps, hz, _, _, hbr, hsr, rfl, _, _⟩ := decode_header hd
  constructor
  case count => exact hc
  all_goals rw [hr]
  case brKbps => exact brRow_lt hcfg (readBr_mem hbr)
  case srHz => exact (srRow_bounds hcfg (readSr_mem hsr)).2
  case slots => exact hslots
  case bytes => exact hbytes

/-- A commit meets the invariant whatever its state's outcome registers held (41_decoder.md R125). -/
theorem inv_of_commit {s t : State} {w : Word} (hcfg : configWf s.cfg = true) (hc : s.count < 2 ^ s.cfg.wCount)
    (h : commit w s = .next t) : Inv t := by
  rcases commitDecoded_next h with ⟨hd, hdec, rfl⟩ | ⟨c, hdec, rfl⟩
  · exact {
      cfgWf := hcfg
      control := by constructor <;> simp
      raw := ⟨by simp, nofun⟩
      result := ⟨fun _ => ⟨hd, hdec, rfl⟩, by simp, nofun⟩
      widths := widthInv_of_header hcfg hc hdec rfl }
  · have hcause := decode_invalid_cause hcfg hdec
    exact {
      cfgWf := hcfg
      control := ⟨by simp, by simp, by simp, by simp, fun _ => hcause⟩
      raw := ⟨by rcases hcause with rfl | rfl | rfl | rfl | rfl <;> simp, nofun⟩
      result := ⟨nofun, fun _ => rfl, fun _ => hdec⟩
      widths := widthInv_of_zero hc rfl }

/-- Every event that an edge can accept keeps the invariant; header classes are none of them (log 10). -/
theorem Inv.exec {i : Instr} {s t : State} (hs : Inv s) (hi : ∀ w, encode i ≠ .header w) (h : exec i s = .next t) :
    Inv t := by
  rcases exec_next_cases h with rfl | ⟨rfl, _⟩ | ⟨rfl, _⟩ | ⟨rfl, _⟩ | ⟨rfl, hl, _⟩ | ⟨_, b, _, hl, hn, rfl⟩ |
    ⟨_, _, _, _, _, hc⟩ | ⟨rfl, hl, _⟩ | ⟨rfl, _⟩ | ⟨rfl, _⟩ | ⟨_, _, _, hc⟩ | ⟨w, _, _, hw⟩
  · exact hs
  · exact inv_arm hs.cfgWf
  · exact inv_resetRegisters hs.cfgWf
  · exact hs.take
  · exact hs.take.collect (by simp [hl]) (by decide) (by decide)
  · obtain ⟨hn', hw⟩ := shiftIn_led b (hs.control.ncolRange.1 hl) hn (hs.raw.partialHeader hl)
    exact hs.take.collect (by simp [hl]) hn' hw
  · exact inv_of_commit (s := s.take) hs.cfgWf (take_count_lt s) hc
  · exact hs.complete_without_header (.inl ⟨rfl, .inl ⟨rfl, hs.raw.beforeLead (.inr (.inl hl))⟩⟩)
  · exact hs.complete_without_header (.inl ⟨rfl, .inr rfl⟩)
  · exact hs.complete_without_header (.inr ⟨rfl, rfl⟩)
  · exact inv_of_commit hs.cfgWf hs.widths.count hc
  · exact absurd hw (hi w)

end Sys2Proof.Machine

namespace Sys2Proof.Proofs

open Sys2Proof.Machine

/-- Settles O51: the edge itself changes no register, and the event it accepts keeps the invariant. -/
theorem everyStepKeepsTheInvariant : Obligations.EveryStepKeepsTheInvariant := by
  intro s t hs h
  obtain ⟨_, ⟨_, rfl⟩ | ⟨e, rest, _, _, hedge⟩⟩ := step_cases h
  · exact hs
  · have hadv : Inv (s.advance e rest) := hs.of_sameRegisters (advance_sameRegisters s e rest)
    rcases hedge with ⟨_, rfl⟩ | ⟨i, hi, hx⟩
    · exact hadv
    · exact hadv.exec (select_not_header hi) hx

/-- Settles O52: the state after reset is what the reset step leaves. -/
theorem resetMeetsTheInvariant : Obligations.ResetMeetsTheInvariant :=
  inv_resetRegisters (s := State.reset) (by decide)

end Sys2Proof.Proofs
end

section
/-! SUPPORT. What an edge accepts, branch by branch in the order of 10_state.md R36, the outputs beside it, and that no
event reads the outcome registers (R33). -/

namespace Sys2Proof.Machine

/-! ## Which event an edge accepts -/

theorem locating_iff (l : LState) : locating l = true ↔ l = .scan ∨ l = .collect := by cases l <;> decide

theorem select_of_rst (s : State) {e : Edge} (hr : e.rst = true) : select s e = some .reset := by
  simp [select, hr]

theorem select_of_stall (s : State) {e : Edge} (hr : e.rst = false) (hs : e.stall = true) : select s e = none := by
  simp [select, hr, hs]

theorem select_of_command {s : State} {e : Edge} (hr : e.rst = false) (hs : e.stall = false) (hv : e.cValid = true)
    (hc : cReady s e = true) : select s e = some (commandOf e.cOp e.cWord) := by
  simp [select, hr, hs, hv, hc]

theorem select_of_streamTurn {s : State} {e : Edge} (h : StreamTurn s e) :
    select s e = decodeStream s.lstate s.ncol e.stream := by
  obtain ⟨hr, hs, hc⟩ := h
  simp [select, hr, hs, hc]

/-! ## The stream's turn (items 4 to 7 of R36) -/

section
variable {l : LState} {n : BitVec 2} {v : StreamVec}

theorem decodeStream_of_sErr (hl : l = .scan ∨ l = .collect) (he : v.sErr = true) :
    decodeStream l n v = some (.sErr v.sValid v.sEos v.sData) := by
  rcases hl with rfl | rfl <;> simp [decodeStream, he]

theorem decodeStream_of_byte (hl : l = .scan ∨ l = .collect) (he : v.sErr = false) (hv : v.sValid = true) :
    decodeStream l n v = some
      (if l = .scan then if v.sData = 0xFF#8 then .byteLead v.sEos else .byteSkip v.sEos v.sData
       else if n = 3#2 then .byteFinal v.sEos v.sData else .byteCollect v.sEos v.sData) := by
  rcases hl with rfl | rfl
  · by_cases hb : v.sData = 0xFF#8 <;> simp [decodeStream, he, hv, hb]
  · by_cases hn : n = 3#2 <;> simp [decodeStream, he, hv, hn]

theorem decodeStream_of_eos (hl : l = .scan ∨ l = .collect) (he : v.sErr = false) (hv : v.sValid = false)
    (hs : v.sEos = true) :
    decodeStream l n v = some (if l = .scan then .eosScan v.sData else .eosCollect v.sData) := by
  rcases hl with rfl | rfl <;> simp [decodeStream, he, hv, hs]

theorem decodeStream_of_quiet (hl : l = .scan ∨ l = .collect) (he : v.sErr = false) (hv : v.sValid = false)
    (hs : v.sEos = false) : decodeStream l n v = none := by
  rcases hl with rfl | rfl <;> simp [decodeStream, he, hv, hs]

theorem decodeStream_outside_locate (hl : l = .idle ∨ l = .done) : decodeStream l n v = some (.streamIgnored v) := by
  rcases hl with rfl | rfl <;> rfl

end

/-! ## Which events take the edge's byte (20_memory.md R44) -/

theorem takesByte_commandOf (op : BitVec 2) (w : Word) : takesByte (some (commandOf op w)) = false := by
  rcases commandOf_cases op w with ⟨_, h⟩ | ⟨_, h⟩ | ⟨_, h⟩ | ⟨_, h⟩ <;> rw [h] <;> rfl

/-- On its turn the stream gives its byte during a locate, and unless a source error takes the cycle. -/
theorem takesByte_decodeStream (l : LState) (n : BitVec 2) (v : StreamVec) :
    takesByte (decodeStream l n v) = (locating l && !v.sErr && v.sValid) := by
  cases hl : locating l
  case false =>
    have hout : l = .idle ∨ l = .done := by cases l <;> simp_all [locating]
    rw [decodeStream_outside_locate hout]; rfl
  case true =>
    have hin := (locating_iff l).1 hl
    cases he : v.sErr
    case true => rw [decodeStream_of_sErr hin he]; rfl
    case false =>
      cases hv : v.sValid
      case true =>
        rw [decodeStream_of_byte hin he hv]
        split <;> split <;> rfl
      case false =>
        cases hs : v.sEos
        case true => rw [decodeStream_of_eos hin he hv hs]; split <;> rfl
        case false => rw [decodeStream_of_quiet hin he hv hs]; rfl

/-- `s_ready` where the stream has its turn (R30). -/
theorem sReady_of_streamTurn {s : State} {e : Edge} (h : ¬ (e.cValid = true ∧ cReady s e = true)) :
    sReady s e = (locating s.lstate && !e.stream.sErr) := by
  have hc : (e.cValid && cReady s e) = false := by simpa using h
  simp [sReady, hc]

/-! ## The outcome registers -/

/-- `s` with other values in STATUS, CAUSE and the results. -/
def State.withOutcome (s : State) (st : Status) (c : Cause) (r : Results) : State :=
  { s with status := st, cause := c, res := r }

/-- Wherever the effect starts from other values in the outcome registers, it answers the same, having written them all;
or it answers a state in which neither run has touched them. -/
def OutcomeUnread (f : State → Host.Outcome State Fault Refusal) : Prop :=
  ∀ s st c r, f (s.withOutcome st c r) = f s ∨
    ∃ t, f s = .next t ∧ f (s.withOutcome st c r) = .next (t.withOutcome st c r) ∧
      t.status = s.status ∧ t.cause = s.cause ∧ t.res = s.res

/-- A commit writes every outcome register (41_decoder.md R125). -/
theorem commitDecoded_withOutcome (w : Word) (d : Decoded) (s : State) (st : Status) (c : Cause) (r : Results) :
    commitDecoded w d (s.withOutcome st c r) = commitDecoded w d s := by
  cases d <;> rfl

/-- An enabling condition that reads no outcome register does not make its effect read one. -/
theorem outcomeUnread_whenAccepted {a : State → Bool} {f : State → Host.Outcome State Fault Refusal}
    (ha : ∀ s st c r, a (s.withOutcome st c r) = a s) (hf : OutcomeUnread f) :
    OutcomeUnread fun s => whenAccepted (a s) s f := by
  intro s st c r
  cases h : a s
  case true => simpa [whenAccepted, ha, h] using hf s st c r
  case false => exact .inr ⟨s, by simp [whenAccepted, h], by simp [whenAccepted, ha, h], rfl, rfl, rfl⟩

/-- An effect that overwrites the outcome registers. -/
theorem outcomeUnread_of_overwrites {f : State → Host.Outcome State Fault Refusal}
    (h : ∀ s st c r, f (s.withOutcome st c r) = f s) : OutcomeUnread f :=
  fun s st c r => .inl (h s st c r)

/-- An effect that leaves the outcome registers alone. -/
theorem outcomeUnread_of_keeps {g : State → State}
    (hg : ∀ s st c r, g (s.withOutcome st c r) = (g s).withOutcome st c r)
    (hk : ∀ s, (g s).status = s.status ∧ (g s).cause = s.cause ∧ (g s).res = s.res) :
    OutcomeUnread fun s => .next (g s) :=
  fun s st c r => .inr ⟨g s, rfl, congrArg _ (hg s st c r), hk s⟩

/-- No event reads STATUS, CAUSE or the results: a commit, a completion, START and reset overwrite them, and every other
event leaves them alone (R33). -/
theorem exec_outcomeUnread (i : Instr) : OutcomeUnread (exec i) := by
  have keeps : OutcomeUnread .next := outcomeUnread_of_keeps (g := id) (fun _ _ _ _ => rfl) fun _ => ⟨rfl, rfl, rfl⟩
  cases i
  case nop | cmdReserved | streamIgnored => exact keeps
  case start | reset | hdrSyncMismatch | hdrV1LRes | hdrV2LRes | hdrV25LRes | hdrVRes =>
    exact outcomeUnread_of_overwrites fun _ _ _ _ => rfl
  case decode w =>
    exact outcomeUnread_whenAccepted (fun _ _ _ _ => rfl)
      (outcomeUnread_of_overwrites fun s st c r => commitDecoded_withOutcome w _ s st c r)
  case byteFinal e b =>
    exact outcomeUnread_whenAccepted (fun _ _ _ _ => rfl)
      (outcomeUnread_of_overwrites fun s st c r => commitDecoded_withOutcome _ _ s.take st c r)
  case byteSkip | byteLead | byteCollect =>
    exact outcomeUnread_whenAccepted (fun _ _ _ _ => rfl)
      (outcomeUnread_of_keeps (fun _ _ _ _ => rfl) fun _ => ⟨rfl, rfl, rfl⟩)
  case sErr | eosScan | eosCollect =>
    exact outcomeUnread_whenAccepted (fun _ _ _ _ => rfl) (outcomeUnread_of_overwrites fun _ _ _ _ => rfl)
  -- The nine classes that read the ROMs before they commit.
  all_goals exact outcomeUnread_of_overwrites fun s st c r => commitDecoded_withOutcome _ _ s st c r

end Sys2Proof.Machine

namespace Sys2Proof.Proofs

open Sys2Proof.Machine

/-- Settles O3: `select` tests reset, the stall, the command and then the stream, in this order. -/
theorem eventPrecedence : Obligations.EventPrecedence := by
  intro s e
  refine ⟨select_of_rst s, select_of_stall s, fun hr hs => ⟨fun hv hc => select_of_command hr hs hv hc, fun hc => ?_⟩⟩
  rw [select_of_streamTurn ⟨hr, hs, hc⟩, sReady_of_streamTurn hc]
  refine ⟨fun hl => ⟨decodeStream_of_sErr hl, fun he hv => ⟨?_, decodeStream_of_byte hl he hv⟩, decodeStream_of_eos hl,
    decodeStream_of_quiet hl⟩, fun hl t => ?_⟩
  · rw [(locating_iff _).2 hl, he]; rfl
  · rw [decodeStream_outside_locate hl]; rfl

/-- Settles O6: only the stream's own turn takes a byte, and there `s_ready` is what its taking asks for besides the
offer; a stall cycle and an accepted command show `s_ready` 0. -/
theorem byteTakenExactlyWhenReady : Obligations.ByteTakenExactlyWhenReady := by
  intro s e hr
  rcases select_cases s e with ⟨hr', _⟩ | ⟨_, hs, h⟩ | ⟨_, hs, ⟨hv, hc⟩, h⟩ | ⟨_, hs, hc, h⟩
  · simp [hr] at hr'
  · simp [h, takesByte, outputs_of_stalled s hr hs]
  · simp [h, takesByte_commandOf, outputs_of_running s (.inr hs), sReady, hv, hc]
  · rw [h, takesByte_decodeStream, outputs_of_running s (.inr hs), sReady_of_streamTurn hc, Bool.and_eq_true, and_comm]

/-- Settles O50: `exec_outcomeUnread`, its two cases read off. -/
theorem statusIsNeverRead : Obligations.StatusIsNeverRead := by
  intro i s t st c r h
  rcases exec_outcomeUnread i s st c r with heq | ⟨t', ht, heq, hst, hca, hres⟩
  · exact ⟨t, heq.trans h, rfl, rfl, rfl, rfl, rfl, rfl, rfl, .inl ⟨rfl, rfl, rfl⟩⟩
  · obtain rfl : t' = t := Host.Outcome.next.inj (ht.symm.trans h)
    exact ⟨_, heq, rfl, rfl, rfl, rfl, rfl, rfl, rfl, .inr ⟨rfl, rfl, rfl, hst, hca, hres⟩⟩

/-- Settles O1: the edge moves no register, and `step` runs what `select` answers. -/
theorem stepRunsTheAcceptedEvent : Obligations.StepRunsTheAcceptedEvent := by
  intro s e rest hc hi hb
  refine ⟨advance_sameRegisters s e rest, rfl, fun i hs => ?_, fun hs => ?_⟩ <;> rw [step_edge hc hi hb, hs]

/-- Settles O4: R30's three formulas are the model's, on an edge that is no stall cycle. -/
theorem handshakeOutputs : Obligations.HandshakeOutputs := by
  intro s e hs
  rw [outputs_of_running s (.inr hs)]
  refine ⟨?_, ?_, ?_⟩
  · simp [shown, doneOut]
  · simp [cReady, locating_iff]
  · simp only [sReady, Bool.and_eq_true, Bool.not_eq_true', ← Bool.not_eq_true, locating_iff, and_assoc]

/-- Settles O5: outside stall cycles the register outputs are `shown`, which names each register. -/
theorem outputsShowTheRegisters : Obligations.OutputsShowTheRegisters := by
  intro s e h
  rw [outputs_of_running s h]
  rfl

end Sys2Proof.Proofs
end

section
/-! SUPPORT. The ROMs as no step and no decode can leave them (20_memory.md R41 to R43), and the four BYTE lines that
assemble a header (R45). -/

namespace Sys2Proof.Machine

/-! ## The ROMs -/

/-- No check before the two lookups reads a ROM, and the lookups stay inside their rows. -/
theorem decode_ne_outsideRom {c : Config} (h : configWf c = true) (w : Word) : decode c w ≠ .outsideRom := by
  rcases decode_cases c w with ⟨_, e⟩ | ⟨_, _, e⟩ | ⟨_, _, _, e⟩ | ⟨v, l, _, _, _, _, e⟩ <;> rw [e]
  · exact nofun
  · exact nofun
  · exact nofun
  · exact decodeRest_ne_outsideRom h v l _

theorem step_cfg {s t : State} (h : step s = .next t) : t.cfg = s.cfg := by
  obtain ⟨_, ⟨_, rfl⟩ | ⟨e, rest, hi, _⟩⟩ := step_cases h
  · rfl
  · exact (step_environment hi h).2.2

/-! ## The assembly register -/

/-- With the top byte still empty, nothing leaves the word that a byte is shifted into (40_locator.md R86, R87). -/
theorem toNat_shiftIn {r : Word} (b : Byte) (hr : r.toNat < 2 ^ 24) : (shiftIn r b).toNat = r.toNat * 256 + b.toNat := by
  have hb := b.isLt
  rw [shiftIn_eq, BitVec.toNat_ofNat]
  omega

theorem toNat_append_bytes (b0 b1 b2 b3 : Byte) :
    (b0 ++ b1 ++ b2 ++ b3).toNat = b0.toNat * 2 ^ 24 + b1.toNat * 2 ^ 16 + b2.toNat * 2 ^ 8 + b3.toNat := by
  simp only [toNat_append_add]
  omega

/-- The first byte taken is the most significant (20_memory.md R45). -/
theorem assemble_eq_append (b0 b1 b2 b3 : Byte) : assemble [b0, b1, b2, b3] = b0 ++ b1 ++ b2 ++ b3 := by
  have hb0 := b0.isLt
  have hb1 := b1.isLt
  have hb2 := b2.isLt
  have h0 : (shiftIn 0#32 b0).toNat = b0.toNat := by
    rw [toNat_shiftIn b0 (by decide)]; exact Nat.zero_add _
  have h1 : (shiftIn (shiftIn 0#32 b0) b1).toNat = b0.toNat * 256 + b1.toNat := by
    rw [toNat_shiftIn b1 (by omega), h0]
  have h2 : (shiftIn (shiftIn (shiftIn 0#32 b0) b1) b2).toNat = (b0.toNat * 256 + b1.toNat) * 256 + b2.toNat := by
    rw [toNat_shiftIn b2 (by omega), h1]
  apply BitVec.eq_of_toNat_eq
  rw [toNat_append_bytes, show assemble [b0, b1, b2, b3] = shiftIn (shiftIn (shiftIn (shiftIn 0#32 b0) b1) b2) b3 from rfl,
    toNat_shiftIn b3 (by omega), h2]
  omega

theorem assemble_concat (bs : List Byte) (b : Byte) : assemble (bs ++ [b]) = shiftIn (assemble bs) b :=
  List.foldl_concat ..

/-! ## The BYTE lines of a header -/

/-- `s` with the header bytes `bs` taken and none completing the header: LSTATE, NCOL and RAW as R85 and R86 leave them. -/
def State.collected (s : State) (bs : List Byte) : State :=
  { s with
      lstate := .collect
      ncol := BitVec.ofNat 2 bs.length
      raw := assemble bs
      count := (s.count + bs.length) % 2 ^ s.cfg.wCount }

@[simp] theorem State.collected_cfg (s : State) (bs : List Byte) : (s.collected bs).cfg = s.cfg := rfl
@[simp] theorem State.collected_lstate (s : State) (bs : List Byte) : (s.collected bs).lstate = .collect := rfl
@[simp] theorem State.collected_ncol (s : State) (bs : List Byte) : (s.collected bs).ncol = BitVec.ofNat 2 bs.length := rfl
@[simp] theorem State.collected_raw (s : State) (bs : List Byte) : (s.collected bs).raw = assemble bs := rfl

/-- What BYTE_COLLECT does to it (40_locator.md R86). -/
theorem collected_concat (s : State) (bs : List Byte) (b : Byte) :
    (s.collected bs).take.collect ((s.collected bs).ncol + 1#2) (shiftIn (s.collected bs).raw b) =
      s.collected (bs ++ [b]) := by
  simp [State.collected, State.take, State.collect, assemble_concat, BitVec.ofNat_add, Nat.mod_add_mod, Nat.add_assoc]

theorem collected_take_count (s : State) (bs : List Byte) :
    (s.collected bs).take.count = (s.count + (bs.length + 1)) % 2 ^ s.cfg.wCount := by
  simp [State.collected, Nat.mod_add_mod, Nat.add_assoc]

theorem runProgram_cons_of_next {s t : State} {l : Line} (ls : List Line) (h : runLine s l = .next t) :
    runProgram s (l :: ls) = runProgram t ls := by
  rw [runProgram, h]

theorem runProgram_singleton (s : State) (l : Line) : runProgram s [l] = runLine s l := by
  rw [runProgram]
  cases runLine s l <;> rfl

section
variable {s : State} (hc : configWf s.cfg = true) (hq : s.src = Duties.none)
include hc hq

/-- BYTE_LEAD as a line (40_locator.md R85). -/
theorem runLine_byte_lead (hl : s.lstate = .scan) : runLine s (.byte 0xFF#8) = .next (s.collected [0xFF#8]) := by
  rw [runLine_byte _ hc hq (by simp [locating, hl]), decodeStream_of_byte (.inl hl) rfl rfl]
  simp [exec, execByteLead, whenAccepted, hl, State.collected, State.take, State.collect, assemble, shiftIn]

/-- During the collecting, NCOL alone tells the fourth byte from the others (10_state.md R36). -/
theorem runLine_byte_collected (bs : List Byte) (b : Byte) :
    runLine (s.collected bs) (.byte b) =
      exec (if BitVec.ofNat 2 bs.length = 3#2 then .byteFinal false b else .byteCollect false b) (s.collected bs) := by
  rw [runLine_byte (s := s.collected bs) b hc hq rfl,
    decodeStream_of_byte (.inr (State.collected_lstate s bs)) rfl rfl]
  rfl

/-- BYTE_COLLECT as a line (R86): the second or third header byte. -/
theorem runLine_byte_collect {bs : List Byte} (b : Byte) (hbs : bs.length < 3) :
    runLine (s.collected bs) (.byte b) = .next (s.collected (bs ++ [b])) := by
  have hn : BitVec.ofNat 2 bs.length ≠ 3#2 := fun h => by
    have h3 : bs.length % 4 = 3 := congrArg BitVec.toNat h
    omega
  rw [runLine_byte_collected hc hq, if_neg hn, ← collected_concat]
  simp [exec, execByteCollect, whenAccepted, hn]

/-- BYTE_FINAL as a line (R87): the fourth header byte commits the assembled word. -/
theorem runLine_byte_final {bs : List Byte} (b : Byte) (hbs : bs.length = 3) :
    runLine (s.collected bs) (.byte b) = commit (assemble (bs ++ [b])) (s.collected bs).take := by
  have hn : BitVec.ofNat 2 bs.length = 3#2 := by rw [hbs]
  rw [runLine_byte_collected hc hq, if_pos hn, assemble_concat]
  simp [exec, execByteFinal, whenAccepted, hn]

/-- The bytes of a header that is not complete are collected in order. -/
theorem runProgram_collect (more : List Byte) {bs : List Byte} (hlen : bs.length + more.length ≤ 3) :
    runProgram (s.collected bs) (feed more) = .next (s.collected (bs ++ more)) := by
  induction more generalizing bs with
  | nil => simp [feed, runProgram]
  | cons b rest ih =>
    rw [List.length_cons] at hlen
    have hb := runLine_byte_collect hc hq (bs := bs) b (by omega)
    calc runProgram (s.collected bs) (feed (b :: rest))
      _ = runProgram (s.collected (bs ++ [b])) (feed rest) := runProgram_cons_of_next _ hb
      _ = .next (s.collected (bs ++ b :: rest)) := by
        rw [ih (by simp; omega), List.append_assoc, List.singleton_append]

/-- Four bytes from a lead byte on come down to one commit of the word they make, the three before the last collected. -/
theorem runProgram_header (b1 b2 b3 : Byte) (hl : s.lstate = .scan) :
    runProgram s (feed [0xFF#8, b1, b2, b3]) =
      commit (0xFF#8 ++ b1 ++ b2 ++ b3) (s.collected [0xFF#8, b1, b2]).take := by
  have hmid : runProgram (s.collected [0xFF#8]) (feed [b1, b2]) = .next (s.collected [0xFF#8, b1, b2]) :=
    runProgram_collect hc hq [b1, b2] (bs := [0xFF#8]) (by simp)
  calc runProgram s (feed [0xFF#8, b1, b2, b3])
    _ = runProgram (s.collected [0xFF#8]) (feed [b1, b2] ++ [Line.byte b3]) :=
      runProgram_cons_of_next (feed [b1, b2, b3]) (runLine_byte_lead hc hq hl)
    _ = runLine (s.collected [0xFF#8, b1, b2]) (.byte b3) := by
      rw [runProgram_append, hmid]
      exact runProgram_singleton ..
    _ = commit (0xFF#8 ++ b1 ++ b2 ++ b3) (s.collected [0xFF#8, b1, b2]).take := by
      rw [runLine_byte_final hc hq b3 rfl, ← assemble_eq_append]
      rfl

end

end Sys2Proof.Machine

namespace Sys2Proof.Proofs

open Sys2Proof.Machine

/-- Settles O26: the four lines end in the commit of the assembled word, which answers under a well-formed configuration
and moves RAW and LSTATE but not COUNT. -/
theorem headerIsAssembledBigEndian : Obligations.HeaderIsAssembledBigEndian := by
  intro s b1 b2 b3 hc hq hl
  obtain ⟨t, ht⟩ := commit_answers (s := (s.collected [0xFF#8, b1, b2]).take) (0xFF#8 ++ b1 ++ b2 ++ b3) hc
  obtain ⟨hdone, _, hraw, hcount, _⟩ := commitDecoded_frame ht
  exact ⟨t, (runProgram_header hc hq b1 b2 b3 hl).trans ht, hraw, hraw ▸ toNat_append_bytes 0xFF#8 b1 b2 b3, hdone,
    hcount.trans (collected_take_count s [0xFF#8, b1, b2])⟩

/-- Settles O34: a well-formed configuration has an entry for every index that passes the two range checks. -/
theorem romsAreReadInsideTheirRows : Obligations.RomsAreReadInsideTheirRows :=
  fun _ w h => decode_ne_outsideRom h w

/-- Settles O47: the edge and the event it accepts leave the configuration, which holds the ROMs. -/
theorem romsNeverChange : Obligations.RomsNeverChange :=
  fun _ _ => step_cfg

end Sys2Proof.Proofs
end

section
/-! SUPPORT. The header classes and the stream rows, read off their words and encoded back (30_encoding.md R60, R72, R73). -/

namespace Sys2Proof

/-! ## Header words (R60, R72) -/

theorem decodeHeader_of_sync_ne {w : Word} (h : syncField w ≠ syncPattern) : decodeHeader w = .hdrSyncMismatch w := by
  simp [decodeHeader, h]

theorem decodeHeader_reservedVersion (lay : BitVec 2) (f : HeaderFields) :
    decodeHeader (headerWord syncPattern 0b01#2 lay f) = .hdrVRes lay f := by
  simp [decodeHeader, (versionOfCode_none _).2 rfl]

theorem decodeHeader_headerWord (v : Version) (lay : BitVec 2) (f : HeaderFields) :
    decodeHeader (headerWord syncPattern v.code lay f) = headerRow v (layerOfCode lay) f := by
  simp [decodeHeader]

/-- Every word fails the sync check, carries the reserved version code, or carries a version that is not reserved. -/
theorem headerWord_cases (w : Word) :
    syncField w ≠ syncPattern ∨ (∃ lay f, w = headerWord syncPattern 0b01#2 lay f) ∨
      ∃ v lay f, w = headerWord syncPattern (Version.code v) lay f := by
  by_cases hs : syncField w = syncPattern
  · have hw := headerWord_fields w
    rw [hs] at hw
    cases hv : versionOfCode (versionCode w) with
    | none => rw [(versionOfCode_none _).1 hv] at hw; exact .inr (.inl ⟨_, _, hw.symm⟩)
    | some v => rw [← code_of_versionOfCode hv] at hw; exact .inr (.inr ⟨v, _, _, hw.symm⟩)
  · exact .inl hs

/-- The layer codes: the reserved one, or a layer's (R64). -/
theorem layerCode_cases (lay : BitVec 2) : lay = 0b00#2 ∨ ∃ l : Layer, lay = l.code := by
  cases h : layerOfCode lay with
  | none => exact .inl ((layerOfCode_none _).1 h)
  | some l => exact .inr ⟨l, (code_of_layerOfCode h).symm⟩

theorem encode_headerRow (v : Version) (lay : BitVec 2) (f : HeaderFields) :
    encode (headerRow v (layerOfCode lay) f) = .header (headerWord syncPattern v.code lay f) := by
  rcases layerCode_cases lay with rfl | ⟨l, rfl⟩
  · cases v <;> rfl
  · cases v <;> cases l <;> rfl

theorem headerRow_wf (v : Version) (ol : Option Layer) (f : HeaderFields) : (headerRow v ol f).wf = true := by
  cases v <;> rcases ol with _ | _ | _ | _ <;> rfl

theorem headerRow_applies (v : Version) (ol : Option Layer) (f : HeaderFields) (l : LState) (n : BitVec 2) :
    (headerRow v ol f).appliesIn l n = true := by
  cases v <;> rcases ol with _ | _ | _ | _ <;> rfl

/-- A header word's class keeps every bit of it. -/
theorem encode_decodeHeader (w : Word) : encode (decodeHeader w) = .header w := by
  rcases headerWord_cases w with hs | ⟨lay, f, rfl⟩ | ⟨v, lay, f, rfl⟩
  · rw [decodeHeader_of_sync_ne hs]; rfl
  · rw [decodeHeader_reservedVersion]; rfl
  · rw [decodeHeader_headerWord, encode_headerRow]

theorem decodeHeader_wf (w : Word) : (decodeHeader w).wf = true := by
  rcases headerWord_cases w with hs | ⟨lay, f, rfl⟩ | ⟨v, lay, f, rfl⟩
  · rw [decodeHeader_of_sync_ne hs]
    simpa [Instr.wf, sync_mask] using hs
  · rw [decodeHeader_reservedVersion]; rfl
  · rw [decodeHeader_headerWord, headerRow_wf]

theorem decodeHeader_applies (w : Word) (l : LState) (n : BitVec 2) : (decodeHeader w).appliesIn l n = true := by
  rcases headerWord_cases w with hs | ⟨lay, f, rfl⟩ | ⟨v, lay, f, rfl⟩
  · rw [decodeHeader_of_sync_ne hs]; rfl
  · rw [decodeHeader_reservedVersion]; rfl
  · rw [decodeHeader_headerWord, headerRow_applies]

/-! ## Commands (R74) -/

theorem decodeCommand_append (op : BitVec 2) (w : Word) : decodeCommand (op ++ w) = commandOf op w := by
  simp [decodeCommand]

theorem encode_commandOf (op : BitVec 2) (w : Word) : encode (commandOf op w) = .command (op ++ w) := by
  rcases Machine.commandOf_cases op w with ⟨rfl, h⟩ | ⟨rfl, h⟩ | ⟨rfl, h⟩ | ⟨rfl, h⟩ <;> rw [h] <;> rfl

theorem commandOf_wf (op : BitVec 2) (w : Word) : (commandOf op w).wf = true := by
  rcases Machine.commandOf_cases op w with ⟨_, h⟩ | ⟨_, h⟩ | ⟨_, h⟩ | ⟨_, h⟩ <;> rw [h] <;> rfl

theorem commandOf_applies (op : BitVec 2) (w : Word) (l : LState) (n : BitVec 2) :
    (commandOf op w).appliesIn l n = true := by
  rcases Machine.commandOf_cases op w with ⟨_, h⟩ | ⟨_, h⟩ | ⟨_, h⟩ | ⟨_, h⟩ <;> rw [h] <;> rfl

/-! ## Stream vectors (R73) -/

theorem decodeAt_stream_iff {l : LState} {n : BitVec 2} {v : BitVec 11} {i : Instr} :
    decodeAt l n (.stream v) = .ok i ↔ decodeStream l n (StreamVec.ofBits v) = some i := by
  rw [decodeAt]
  cases decodeStream l n (StreamVec.ofBits v) <;> simp

theorem decodeAt_stream_bits {l : LState} {n : BitVec 2} {v : StreamVec} {i : Instr} (h : decodeStream l n v = some i) :
    decodeAt l n (.stream v.bits) = .ok i := by
  rwa [decodeAt_stream_iff, ofBits_bits]

/-- The row a stream vector is read as encodes every bit of it, those its effect ignores included. -/
theorem encode_of_decodeStream {l : LState} {n : BitVec 2} {v : StreamVec} {i : Instr} (h : decodeStream l n v = some i) :
    encode i = .stream v.bits ∧ i.wf = true := by
  have hl : (l = .idle ∨ l = .done) ∨ l = .scan ∨ l = .collect := by cases l <;> simp
  obtain ⟨sErr, sValid, sEos, b⟩ := v
  rcases hl with hl | hl
  · rw [Machine.decodeStream_outside_locate hl] at h
    cases h
    exact ⟨rfl, rfl⟩
  · cases sErr with
    | true =>
      rw [Machine.decodeStream_of_sErr hl rfl] at h
      cases h
      exact ⟨rfl, rfl⟩
    | false =>
      cases sValid with
      | true =>
        rw [Machine.decodeStream_of_byte hl rfl rfl] at h
        cases h
        by_cases hs : l = .scan
        · by_cases hb : b = 0xFF#8 <;> simp [hs, hb, encode, streamOf, Instr.wf]
        · by_cases hn : n = 3#2 <;> simp [hs, hn, encode, streamOf, Instr.wf]
      | false =>
        cases sEos with
        | true =>
          rw [Machine.decodeStream_of_eos hl rfl rfl rfl] at h
          cases h
          split <;> exact ⟨rfl, rfl⟩
        | false =>
          rw [Machine.decodeStream_of_quiet hl rfl rfl rfl] at h
          cases h

/-- The row of the byte that a locate is offered with no error. -/
theorem decodeAt_byte {l : LState} {n : BitVec 2} (hl : l = .scan ∨ l = .collect) (sEos : Bool) (b : Byte) :
    decodeAt l n (streamOf false true sEos b) = .ok
      (if l = .scan then if b = 0xFF#8 then .byteLead sEos else .byteSkip sEos b
       else if n = 3#2 then .byteFinal sEos b else .byteCollect sEos b) :=
  decodeAt_stream_bits (Machine.decodeStream_of_byte hl rfl rfl)

theorem decodeAt_eos {l : LState} {n : BitVec 2} (hl : l = .scan ∨ l = .collect) (b : Byte) :
    decodeAt l n (streamOf false false true b) = .ok (if l = .scan then .eosScan b else .eosCollect b) :=
  decodeAt_stream_bits (Machine.decodeStream_of_eos hl rfl rfl rfl)

end Sys2Proof

namespace Sys2Proof.Proofs

open Sys2Proof.Machine

/-- Settles O54, row by row: a header word gives its fields back, a command its code and word, and a stream vector is read
in the control state that the row's own condition names. -/
theorem decodeOfEncode : Obligations.DecodeOfEncode := by
  intro i l n hwf happ
  cases i
  case hdrSyncMismatch w =>
    have hs : syncField w ≠ syncPattern := by simpa [Instr.wf, sync_mask] using hwf
    exact congrArg Except.ok (decodeHeader_of_sync_ne hs)
  case hdrVRes lay f => exact congrArg Except.ok (decodeHeader_reservedVersion lay f)
  case hdrV1L1 f | hdrV1L2 f | hdrV1L3 f | hdrV1LRes f => exact congrArg Except.ok (decodeHeader_headerWord .v1 _ f)
  case hdrV2L1 f | hdrV2L2 f | hdrV2L3 f | hdrV2LRes f => exact congrArg Except.ok (decodeHeader_headerWord .v2 _ f)
  case hdrV25L1 f | hdrV25L2 f | hdrV25L3 f | hdrV25LRes f => exact congrArg Except.ok (decodeHeader_headerWord .v25 _ f)
  case nop w | start w | decode w | cmdReserved w => exact congrArg Except.ok (decodeCommand_append _ w)
  case sErr sValid sEos b =>
    exact decodeAt_stream_bits (decodeStream_of_sErr (by simpa [Instr.appliesIn] using happ) rfl)
  case byteLead sEos =>
    have hl : l = .scan := by simpa [Instr.appliesIn] using happ
    simpa [encode, hl] using decodeAt_byte (n := n) (.inl hl) sEos 0xFF#8
  case byteSkip sEos b =>
    have hl : l = .scan := by simpa [Instr.appliesIn] using happ
    have hb : b ≠ 0xFF#8 := by simpa [Instr.wf] using hwf
    simpa [encode, hl, hb] using decodeAt_byte (n := n) (.inl hl) sEos b
  case byteCollect sEos b =>
    obtain ⟨hl, hn⟩ : l = .collect ∧ n ≠ 3#2 := by simpa [Instr.appliesIn] using happ
    simpa [encode, hl, hn] using decodeAt_byte (n := n) (.inr hl) sEos b
  case byteFinal sEos b =>
    obtain ⟨hl, hn⟩ : l = .collect ∧ n = 3#2 := by simpa [Instr.appliesIn] using happ
    simpa [encode, hl, hn] using decodeAt_byte (n := n) (.inr hl) sEos b
  case eosScan b =>
    have hl : l = .scan := by simpa [Instr.appliesIn] using happ
    simpa [encode, hl] using decodeAt_eos (n := n) (.inl hl) b
  case eosCollect b =>
    have hl : l = .collect := by simpa [Instr.appliesIn] using happ
    simpa [encode, hl] using decodeAt_eos (n := n) (.inr hl) b
  case streamIgnored v =>
    exact decodeAt_stream_bits (decodeStream_outside_locate (by simpa [Instr.appliesIn] using happ))
  case reset => rfl

/-- Settles O55, port by port: each decoder keeps every bit of what its port carries, and answers only rows that apply. -/
theorem encodeOfDecode : Obligations.EncodeOfDecode := by
  intro p l n i h
  cases p with
  | rst r =>
    by_cases hr : r = 1#1
    · subst hr; cases h; exact ⟨rfl, rfl, rfl⟩
    · simp [decodeAt, hr] at h
  | stream v =>
    have hd := decodeAt_stream_iff.1 h
    obtain ⟨he, hwf⟩ := encode_of_decodeStream hd
    exact ⟨by rw [he, bits_ofBits], hwf, decodeStream_applies hd⟩
  | header w =>
    cases h
    exact ⟨encode_decodeHeader w, decodeHeader_wf w, decodeHeader_applies w l n⟩
  | command v =>
    cases h
    exact ⟨by rw [decodeCommand, encode_commandOf, command_parts], commandOf_wf _ _, commandOf_applies _ _ l n⟩

/-- Settles O56: seven closed words. -/
theorem encodedWordsDecode : Obligations.EncodedWordsDecode := by
  refine ⟨?_, ?_, decodeCommand_append _ _, ?_, ?_, ?_, rfl⟩
  · decide
  · decide
  · rfl
  · rfl
  · rfl

end Sys2Proof.Proofs
end

section
/-! SUPPORT. What a header class means and which of the table's rows admits its words (30_encoding.md R72). -/

namespace Sys2Proof.Machine

/-! ## The commit of a word is its class's meaning (R72, 41_decoder.md R125) -/

theorem headerRow_some (v : Version) (l : Layer) (f : HeaderFields) : headerRow v (some l) f = classOf v l f := by
  cases v <;> cases l <;> rfl

theorem exec_headerRow_reserved (v : Version) (f : HeaderFields) (s : State) :
    exec (headerRow v none f) s = commitInvalid (headerWord syncPattern v.code 0b00#2 f) .layer s := by
  cases v <;> rfl

/-- What the decoder's class leaves to check is what `decode` checks after it. -/
theorem exec_decodeHeader (w : Word) (s : State) : exec (decodeHeader w) s = commit w s := by
  rcases headerWord_cases w with hs | ⟨lay, f, rfl⟩ | ⟨v, lay, f, rfl⟩
  · have hd : decode s.cfg w = .invalid .sync := by simp [decode, hs]
    rw [decodeHeader_of_sync_ne hs, commit, hd]
    rfl
  · have hd : decode s.cfg (headerWord syncPattern 0b01#2 lay f) = .invalid .version := by
      simp [decode, (versionOfCode_none _).2 rfl]
    rw [decodeHeader_reservedVersion, commit, hd]
    rfl
  · rw [decodeHeader_headerWord]
    rcases layerCode_cases lay with rfl | ⟨l, rfl⟩
    · have hd : decode s.cfg (headerWord syncPattern v.code 0b00#2 f) = .invalid .layer := by
        simp [decode, (layerOfCode_none _).2 rfl]
      rw [(layerOfCode_none _).2 rfl, exec_headerRow_reserved, commit, hd]
      rfl
    · rw [layerOfCode_code, headerRow_some, exec_classOf, commit, decode_headerWord]
      rfl

/-- The fourth header byte commits the word it completes (40_locator.md R87). -/
theorem exec_byteFinal {s : State} (sEos : Bool) (b : Byte) (hl : s.lstate = .collect) (hn : s.ncol = 3#2) :
    exec (.byteFinal sEos b) s = commit (BitVec.ofNat 32 (s.raw.toNat * 256 + b.toNat)) s.take := by
  simp [exec, execByteFinal, whenAccepted, hl, hn, shiftIn_eq]

end Sys2Proof.Machine

namespace Sys2Proof

/-! ## The fourteen rows as tests of the bits above the fields (R72) -/

/-- A test of bits that `m` keeps sees no others. -/
theorem Row.admits_and {r : Row} {m : Nat} (h : m &&& r.mask = r.mask) (n : Nat) : r.admits (n &&& m) = r.admits n := by
  rw [Row.admits, Nat.and_assoc, h, Row.admits]

/-- A row that asks for the bits of `m` to be set admits only numbers with those bits set. -/
theorem and_eq_of_admits {r : Row} {m n : Nat} (he : r.equal = true) (hm : r.mask &&& m = m) (hp : r.pattern &&& m = m)
    (h : r.admits n = true) : n &&& m = m := by
  have hn : n &&& r.mask = r.pattern := by simpa [Row.admits, he] using h
  calc n &&& m
    _ = (n &&& r.mask) &&& m := by rw [Nat.and_assoc, hm]
    _ = m := by rw [hn, hp]

/-- Without the sync pattern only the first row admits a word: every other row asks for the pattern. -/
theorem headerRows_of_sync_ne {w : Word} (h : syncField w ≠ syncPattern) :
    headerRows.filter (·.admits w.toNat) = [(Instr.hdrSyncMismatch w).row] := by
  have hmask : w.toNat &&& 0xFFE00000 ≠ 0xFFE00000 := fun e =>
    h ((sync_mask w).1 (BitVec.eq_of_toNat_eq ((BitVec.toNat_and ..).trans e)))
  have hfirst : (Instr.hdrSyncMismatch w).row.admits w.toNat = true := by simp [Row.admits, Instr.row, hmask]
  have hrest : ∀ r ∈ headerRows.tail, r.equal = true ∧ r.mask &&& 0xFFE00000 = 0xFFE00000 ∧
      r.pattern &&& 0xFFE00000 = 0xFFE00000 := by decide
  have hnone : headerRows.tail.filter (·.admits w.toNat) = [] :=
    List.filter_eq_nil_iff.2 fun r hr ha =>
      have ⟨he, hm, hp⟩ := hrest r hr
      hmask (and_eq_of_admits he hm hp ha)
  rw [show headerRows = (Instr.hdrSyncMismatch w).row :: headerRows.tail from rfl, List.filter_cons, if_pos hfirst, hnone]

/-- The version and layer codes of a word that has the sync pattern, where the table's masks see them. -/
def codeBits (ver lay : BitVec 2) : Nat := (2047 * 16 + ver.toNat * 4 + lay.toNat) * 2 ^ 17

/-- With the sync pattern the rows see a word's version and layer codes, and nothing below. -/
theorem headerRows_of_sync (ver lay : BitVec 2) (f : HeaderFields) :
    headerRows.filter (·.admits (headerWord syncPattern ver lay f).toNat) =
      headerRows.filter (·.admits (codeBits ver lay)) := by
  have hmask : ∀ r ∈ headerRows, 0xFFFE0000 &&& r.mask = r.mask := by decide
  have htop : (headerWord syncPattern ver lay f).toNat &&& 0xFFFE0000 = codeBits ver lay := by
    obtain ⟨r, hr, e⟩ := toNat_headerWord_split syncPattern ver lay f
    have hs : syncPattern.toNat = 2047 := rfl
    rw [and_layerMask, e, hs, codeBits]
    omega
  refine List.filter_congr fun r hr => ?_
  rw [← htop, Row.admits_and (hmask r hr)]

/-- Each of the sixteen pairs of codes meets one row: the reserved version's whatever the layer, else its own. -/
theorem headerRows_of_codes : ∀ ver lay : BitVec 2, headerRows.filter (·.admits (codeBits ver lay)) =
    [if ver = 0b01#2 then ⟨0xFFF80000, 0xFFE80000, true⟩ else ⟨0xFFFE0000, codeBits ver lay, true⟩] := by decide

theorem headerRow_row (v : Version) (lay : BitVec 2) (f : HeaderFields) :
    (headerRow v (layerOfCode lay) f).row = ⟨0xFFFE0000, codeBits v.code lay, true⟩ := by
  rcases layerCode_cases lay with rfl | ⟨l, rfl⟩
  · cases v <;> rfl
  · cases v <;> cases l <;> rfl

theorem code_ne_reserved (v : Version) : v.code ≠ 0b01#2 := by cases v <;> decide

end Sys2Proof

namespace Sys2Proof.Proofs

open Sys2Proof.Machine

/-- Settles O40: DECODE outside a locate and the fourth byte both commit a word, and a commit is the class's meaning. -/
theorem commitIsTheHeaderClass : Obligations.CommitIsTheHeaderClass := by
  refine ⟨fun s w hl => ?_, fun s sEos b hl hn => ?_⟩
  · rw [exec_decode_outside_locate w hl, exec_decodeHeader]
  · rw [exec_byteFinal sEos b hl hn, exec_decodeHeader]

/-- Settles O41: without the sync pattern the first row alone admits the word; with it the two
codes decide. -/
theorem headerClassesAreDisjointAndCover : Obligations.HeaderClassesAreDisjointAndCover := by
  intro w
  rcases headerWord_cases w with hs | ⟨lay, f, rfl⟩ | ⟨v, lay, f, rfl⟩
  · rw [decodeHeader_of_sync_ne hs, headerRows_of_sync_ne hs]
  · rw [decodeHeader_reservedVersion, headerRows_of_sync, headerRows_of_codes, if_pos rfl]
    rfl
  · rw [decodeHeader_headerWord, headerRows_of_sync, headerRows_of_codes, if_neg (code_ne_reserved v), headerRow_row]

end Sys2Proof.Proofs
end

section
/-! SUPPORT. A table word at the next edge, and what the step there runs (log 9, log 10). -/

namespace Sys2Proof.Machine

theorem decodeTableWord_eq_some {nbits w : Nat} {i : Instr} (h : decodeTableWord nbits w = some i) :
    ∃ p, portWord nbits w = .ok p ∧ decodeAt (tableControl p) 0#2 p = .ok i := by
  unfold decodeTableWord decodeTable at h
  cases hp : portWord nbits w with
  | error e => simp [hp] at h
  | ok p => cases hd : decodeAt (tableControl p) 0#2 p <;> simp_all

theorem withFetchWord_of_portWord {s : State} {nbits w : Nat} {p : PortWord} (h : portWord nbits w = .ok p) :
    s.withFetchWord nbits w = s.offer p := by
  rw [State.withFetchWord, placeWord, h]

/-- Where a stream vector is offered, it is read as in the table's control state; IDLE and DONE read it alike. -/
theorem decodeStream_offer (s : State) (v : BitVec 11) (u : StreamVec) :
    decodeStream (s.offer (.stream v)).lstate (s.offer (.stream v)).ncol u =
      decodeStream (tableControl (.stream v)) 0#2 u := by
  rw [State.offer_lstate, State.offer_ncol]
  by_cases hr : readyFor s.lstate s.ncol (.stream v) = true
  · rw [if_pos hr, if_pos hr]
    have hr' : s.lstate = tableControl (.stream v) ∧ s.ncol = 0#2 ∨
        s.lstate = .done ∧ tableControl (.stream v) = .idle := by simpa [readyFor] using hr
    rcases hr' with ⟨hl, hn⟩ | ⟨hl, ht⟩
    · rw [hl, hn]
    · rw [hl, ht]; rfl
  · rw [if_neg hr, if_neg hr]

/-- Where a DECODE is offered, by a header word or as a command, no locate is in progress. -/
theorem not_locating_offer {s : State} {p : PortWord} (ht : tableControl p = .idle)
    (hr : readyFor s.lstate s.ncol p = true → locating s.lstate = false) : locating (s.offer p).lstate = false := by
  rw [State.offer_lstate]
  split
  · next h => exact hr h
  · rw [ht]; rfl

theorem not_locating_iff (l : LState) : locating l = false ↔ l = .idle ∨ l = .done := by cases l <;> decide

/-- Outside a locate no command is held (10_state.md R30). -/
theorem cReady_of_not_locating {s : State} (e : Edge) (h : locating s.lstate = false) : cReady s e = true := by
  simp [cReady, h]

theorem streamTurn_of_no_command {s : State} {e : Edge} (hr : e.rst = false) (hs : e.stall = false)
    (hv : e.cValid = false) : StreamTurn s e :=
  ⟨hr, hs, by simp [hv]⟩

/-- The edge that offers a table word accepts what the word decodes to; for a header word it accepts a DECODE, which means
what the word's class means. -/
theorem select_offer (s : State) {p : PortWord} {i : Instr} (h : decodeAt (tableControl p) 0#2 p = .ok i) :
    ∃ j, select (s.offer p) (edgeOf p) = some j ∧ ∀ t : State, t.lstate = (s.offer p).lstate → exec j t = exec i t := by
  cases p with
  | rst r =>
    by_cases hr : r = 1#1
    · subst hr; cases h; exact ⟨_, rfl, fun _ _ => rfl⟩
    · simp [decodeAt, hr] at h
  | stream v =>
    refine ⟨i, ?_, fun _ _ => rfl⟩
    rw [select_of_streamTurn (streamTurn_of_no_command rfl rfl rfl), decodeStream_offer]
    exact decodeAt_stream_iff.1 h
  | header w =>
    have hl : locating (s.offer (.header w)).lstate = false :=
      not_locating_offer rfl fun hr => by simpa [readyFor] using hr
    cases h
    refine ⟨.decode w, select_of_command rfl rfl rfl (cReady_of_not_locating _ hl), fun t ht => ?_⟩
    rw [exec_decode_outside_locate w ((not_locating_iff _).1 (ht ▸ hl)), exec_decodeHeader]
  | command v =>
    cases h
    refine ⟨_, select_of_command rfl rfl rfl ?_, fun _ _ => rfl⟩
    by_cases hop : v.extractLsb' 32 2 = 0b10#2
    · have hl : locating (s.offer (.command v)).lstate = false :=
        not_locating_offer rfl fun hr => by simpa [readyFor, hop] using hr
      exact cReady_of_not_locating _ hl
    · simp [cReady, edgeOf, hop]

end Sys2Proof.Machine

namespace Sys2Proof.Proofs

open Sys2Proof.Machine

/-- Settles O2: the placed word breaks no duty, and the edge that offers it accepts the word's event, or for a header word
the DECODE that means the same. -/
theorem stepRunsThePlacedTableWord : Obligations.StepRunsThePlacedTableWord := by
  intro s nbits w i hc h
  obtain ⟨p, hp, hd⟩ := decodeTableWord_eq_some h
  obtain ⟨j, hsel, hexec⟩ := select_offer s hd
  rw [withFetchWord_of_portWord hp]
  refine ⟨dutiesAfter (s.offer p) (edgeOf p) (select (s.offer p) (edgeOf p)), ?_⟩
  calc step (s.offer p)
    _ = exec j ((s.offer p).advance (edgeOf p) s.inputs) := by
      rw [step_edge (s := s.offer p) hc rfl (brokenDuty_none _ rfl), hsel]
    _ = exec i ((s.offer p).advance (edgeOf p) s.inputs) := hexec _ rfl

end Sys2Proof.Proofs
end

section
/-! SUPPORT. What an accepted program line leaves outstanding (30_encoding.md R77; 70_reset_and_hazards.md R186). -/

namespace Sys2Proof.Machine

/-- Only a START begins a locate: every other event that finds none in progress leaves none. -/
theorem exec_not_locating {i : Instr} {s t : State} (h : exec i s = .next t) (hi : eventStarts i = false)
    (hl : locating s.lstate = false) : locating t.lstate = false := by
  have done {u : State} (hu : u.lstate = .done) : locating u.lstate = false := by rw [hu]; rfl
  rcases exec_next_cases h with rfl | ⟨_, w, rfl⟩ | ⟨rfl, _⟩ | ⟨rfl, _⟩ | ⟨_, hs, _⟩ | ⟨_, _, _, hs, _⟩ | ⟨_, _, _, _, _, hc⟩ |
    ⟨rfl, _⟩ | ⟨rfl, _⟩ | ⟨rfl, _⟩ | ⟨_, _, _, hc⟩ | ⟨_, _, hc, _⟩
  · exact hl
  · cases hi
  · rfl
  · exact hl
  · rw [hs] at hl; cases hl
  · rw [hs] at hl; cases hl
  · exact done (commitDecoded_frame hc).1
  · rfl
  · rfl
  · rfl
  · exact done (commitDecoded_frame hc).1
  · exact done (commitDecoded_frame hc).1

/-- The same of a step whose edge accepts no START. -/
theorem step_not_locating {s t : State} {e : Edge} {rest : List Edge} (hi : s.inputs = e :: rest) (h : step s = .next t)
    (hs : startsAt (select s e) = false) (hl : locating s.lstate = false) : locating t.lstate = false := by
  obtain ⟨_, ⟨h0, _⟩ | ⟨e', rest', h1, _, hedge⟩⟩ := step_cases h
  · rw [hi] at h0; cases h0
  · rw [hi] at h1; cases h1
    rcases hedge with ⟨_, rfl⟩ | ⟨i, hsel, hx⟩
    · exact hl
    · rw [hsel] at hs
      exact exec_not_locating hx hs hl

/-- Under a well-formed configuration an edge that breaks no duty is answered. -/
theorem step_answers {s : State} {e : Edge} {rest : List Edge} (hc : configWf s.cfg = true) (hi : s.inputs = e :: rest)
    (hb : brokenDuty s e = none) : ∃ t, step s = .next t := by
  rw [step_edge hc hi hb]
  cases select s e with
  | none => exact ⟨_, rfl⟩
  | some i => exact exec_answers i (s := s.advance e rest) hc

section
variable {d : LevelDuty} {level : Bool} {i : Option Instr}

/-- A level that is high only where the locate completes need not be kept. -/
theorem levelDutyAfter_keep (hk : d.keep = false) (hl : level = true → completesLocateAt i = true) :
    (levelDutyAfter d level i).keep = false := by
  cases level <;> simp_all [levelDutyAfter]

theorem levelDutyAfter_seen (h : (levelDutyAfter d level i).seen = true) :
    startsAt i = false ∧ (d.seen = true ∨ level = true) := by
  simpa [levelDutyAfter] using h

end

/-- A step leaves nothing outstanding where nothing was, if its edge offers no byte that is not taken and raises no level
but to complete the locate. -/
theorem quiescent_step {s t : State} {e : Edge} {rest : List Edge} (hi : s.inputs = e :: rest) (h : step s = .next t)
    (hq : Quiescent s) (hbyte : e.stream.sValid = true → takesByte (select s e) = true)
    (hlevel : e.stream.sEos = true ∨ e.stream.sErr = true → completesLocateAt (select s e) = true) : Quiescent t := by
  obtain ⟨_, heos, herr, hseen⟩ := hq
  have outside (hs : startsAt (select s e) = false) (hsl : (s.src.eos.seen = true ∨ s.src.err.seen = true) ∨
      e.stream.sEos = true ∨ e.stream.sErr = true) : locating t.lstate = false := by
    rcases hsl with hold | hnew
    · exact step_not_locating hi h hs (hseen hold)
    · rw [((step_completes_iff hi h).1 (hlevel hnew)).2]; rfl
  rw [Quiescent, (step_environment hi h).1]
  refine ⟨?_, levelDutyAfter_keep heos fun hl => hlevel (.inl hl), levelDutyAfter_keep herr fun hl => hlevel (.inr hl), ?_⟩
  · cases hv : e.stream.sValid <;> simp_all [dutiesAfter]
  · rintro (hd | hd)
    · obtain ⟨hs, ho | hn⟩ := levelDutyAfter_seen hd
      · exact outside hs (.inl (.inl ho))
      · exact outside hs (.inr (.inl hn))
    · obtain ⟨hs, ho | hn⟩ := levelDutyAfter_seen hd
      · exact outside hs (.inl (.inr ho))
      · exact outside hs (.inr (.inr hn))

/-- A BYTE line that is accepted is taken (40_locator.md R84 to R87). -/
theorem takesByte_line {s : State} {l : Line} (ha : l.accepted s = true) (hv : l.edge.stream.sValid = true) :
    takesByte (select s l.edge) = true := by
  cases l
  case byte b =>
    have hl : locating s.lstate = true := ha
    rw [select_of_streamTurn (streamTurn_of_no_command rfl rfl rfl), takesByte_decodeStream, hl]
    rfl
  all_goals cases hv

/-- An EOS or ERR line that is accepted completes the locate (40_locator.md R88 to R90). -/
theorem completesLocateAt_line {s : State} {l : Line} (ha : l.accepted s = true)
    (hv : l.edge.stream.sEos = true ∨ l.edge.stream.sErr = true) : completesLocateAt (select s l.edge) = true := by
  cases l
  case eos =>
    rw [select_of_streamTurn (streamTurn_of_no_command rfl rfl rfl), decodeStream_of_eos ((locating_iff _).1 ha) rfl rfl rfl]
    split <;> rfl
  case err =>
    rw [select_of_streamTurn (streamTurn_of_no_command rfl rfl rfl), decodeStream_of_sErr ((locating_iff _).1 ha) rfl]
    rfl
  all_goals rcases hv with hv | hv <;> cases hv

end Sys2Proof.Machine

namespace Sys2Proof.Proofs

open Sys2Proof.Machine

/-- Settles O53: an accepted line's byte is taken and its level completes the locate, so nothing stays owed; a program
answers up to its first refused line, and that refusal is the program's. -/
theorem acceptedLinesRun : Obligations.AcceptedLinesRun := by
  refine ⟨fun s l hc hq ha => ?_, fun s t ls l rest hrun ha => ?_, quiescent_of_none rfl⟩
  · obtain ⟨t, ht⟩ := step_answers (s := { s with inputs := l.edge :: s.inputs }) hc rfl (brokenDuty_line l hq ha)
    obtain ⟨_, hinputs, hcfg⟩ := step_environment rfl ht
    exact ⟨t, by rw [runLine, if_pos ha, ht], hcfg, hinputs,
      quiescent_step rfl ht hq (takesByte_line ha) (completesLocateAt_line ha)⟩
  · rw [runProgram_append, hrun]
    simp [runProgram, runLine, ha]

end Sys2Proof.Proofs
end

section
/-! SUPPORT. The commands, the byte rows, the end of the stream and the source error as events of an edge (40_locator.md R81
to R91), and what each event does to COUNT (R93). -/

namespace Sys2Proof.Machine

/-! ## Commands (R81 to R83) -/

/-- Every command but DECODE is accepted wherever it is offered, and takes the cycle from the stream (10_state.md R30,
R36). -/
theorem select_commandTurn {s : State} {e : Edge} {op : BitVec 2} (h : CommandTurn e op) (hop : op ≠ 0b10#2) :
    cReady s e = true ∧ select s e = some (commandOf op e.cWord) ∧ takesByte (select s e) = false := by
  obtain ⟨hr, hs, hv, rfl⟩ := h
  have hc : cReady s e = true := by simp [cReady, hop]
  have hsel := select_of_command hr hs hv hc
  exact ⟨hc, hsel, by rw [hsel, takesByte_commandOf]⟩

/-! ## The byte rows (R84 to R87) -/

/-- A byte offered in a locate, on the stream's turn and with no source error, is accepted and taken. -/
theorem select_byteTurn {s : State} {e : Edge} (ht : StreamTurn s e) (hl : s.lstate = .scan ∨ s.lstate = .collect)
    (he : e.stream.sErr = false) (hv : e.stream.sValid = true) :
    select s e = some
      (if s.lstate = .scan then
        if e.stream.sData = 0xFF#8 then .byteLead e.stream.sEos else .byteSkip e.stream.sEos e.stream.sData
       else if s.ncol = 3#2 then .byteFinal e.stream.sEos e.stream.sData
       else .byteCollect e.stream.sEos e.stream.sData) ∧
    takesByte (select s e) = true := by
  rw [select_of_streamTurn ht]
  refine ⟨decodeStream_of_byte hl he hv, ?_⟩
  rw [takesByte_decodeStream, (locating_iff _).2 hl, he, hv]
  rfl

theorem exec_byteSkip {s : State} (sEos : Bool) {b : Byte} (hl : s.lstate = .scan) (hb : b ≠ 0xFF#8) :
    exec (.byteSkip sEos b) s = .next s.take := by
  simp [exec, execByteSkip, whenAccepted, hl, hb]

theorem exec_byteLead {s : State} (sEos : Bool) (hl : s.lstate = .scan) :
    exec (.byteLead sEos) s = .next (s.take.collect 1#2 0xFF#32) := by
  simp [exec, execByteLead, whenAccepted, hl]

theorem exec_byteCollect {s : State} (sEos : Bool) (b : Byte) (hl : s.lstate = .collect) (hn : s.ncol ≠ 3#2) :
    exec (.byteCollect sEos b) s =
      .next (s.take.collect (s.ncol + 1#2) (BitVec.ofNat 32 (s.raw.toNat * 256 + b.toNat))) := by
  simp [exec, execByteCollect, whenAccepted, hl, hn, shiftIn_eq]

/-! ## The commit's two outcomes (41_decoder.md R125) -/

theorem commit_of_invalid {s : State} {w : Word} {c : Cause} (e : decode s.cfg w = .invalid c) :
    commit w s = .next ((s.setRaw w).complete .invalidHeader c Results.zero) := by
  rw [commit, e]; rfl

theorem decode_answers {c : Config} (h : configWf c = true) (w : Word) :
    (∃ hd, decode c w = .header hd) ∨ ∃ x, decode c w = .invalid x := by
  cases e : decode c w with
  | header hd => exact .inl ⟨hd, rfl⟩
  | invalid x => exact .inr ⟨x, rfl⟩
  | outsideRom => exact absurd e (decode_ne_outsideRom h w)

/-! ## The ends of a stream (R88 to R90) -/

theorem exec_eosScan {s : State} (b : Byte) (hl : s.lstate = .scan) :
    exec (.eosScan b) s = .next (s.complete .syncNotFound .noLead Results.zero) := by
  simp [exec, execEosScan, whenAccepted, hl]

theorem exec_eosCollect {s : State} (b : Byte) (hl : s.lstate = .collect) :
    exec (.eosCollect b) s = .next (s.complete .syncNotFound .truncated Results.zero) := by
  simp [exec, execEosCollect, whenAccepted, hl]

theorem exec_sErr {s : State} (sValid sEos : Bool) (b : Byte) (hl : locating s.lstate = true) :
    exec (.sErr sValid sEos b) s = .next (s.complete .streamUnavailable .none Results.zero) := by
  simp [exec, execSErr, whenAccepted, hl]

/-- The stream's turn at the end of the stream, with no error and no byte. -/
theorem select_eosTurn {s : State} {e : Edge} (ht : StreamTurn s e) (hl : s.lstate = .scan ∨ s.lstate = .collect)
    (he : e.stream.sErr = false) (hv : e.stream.sValid = false) (hs : e.stream.sEos = true) :
    select s e = some (if s.lstate = .scan then .eosScan e.stream.sData else .eosCollect e.stream.sData) :=
  (select_of_streamTurn ht).trans (decodeStream_of_eos hl he hv hs)

/-! ## Outside a locate (R91) -/

/-- No edge takes a byte outside a locate, whichever of its inputs has the turn. -/
theorem takesByte_outside_locate {s : State} (e : Edge) (hl : locating s.lstate = false) :
    takesByte (select s e) = false := by
  rcases select_cases s e with ⟨_, h⟩ | ⟨_, _, h⟩ | ⟨_, _, _, h⟩ | ⟨_, _, _, h⟩ <;> rw [h]
  · rfl
  · rfl
  · exact takesByte_commandOf _ _
  · rw [takesByte_decodeStream, hl]; rfl

/-! ## COUNT (R93) -/

theorem commitDecoded_count {w : Word} {d : Decoded} {s t : State} (h : commitDecoded w d s = .next t) :
    t.count = s.count := by
  obtain ⟨_, _, _, hcount, _⟩ := commitDecoded_frame h
  exact hcount

/-- COUNT after an event with an enabling condition: what the effect leaves in it, or what was there (00_scope.md R10). -/
theorem whenAccepted_count {a : Bool} {s t : State} {f : State → Host.Outcome State Fault Refusal} {n : Nat}
    (h : whenAccepted a s f = .next t) (hf : f s = .next t → t.count = n) :
    t.count = if a = true then n else s.count := by
  rcases whenAccepted_cases a s f with ⟨ha, e⟩ | ⟨ha, e⟩ <;> rw [e] at h <;> simp only [ha]
  · exact hf h
  · cases h; rfl

/-- An enabling condition makes no difference to an effect that leaves COUNT alone. -/
theorem whenAccepted_count_same {a : Bool} {s t : State} {f : State → Host.Outcome State Fault Refusal}
    (h : whenAccepted a s f = .next t) (hf : f s = .next t → t.count = s.count) : t.count = s.count := by
  simpa using whenAccepted_count h hf

end Sys2Proof.Machine

namespace Sys2Proof.Proofs

open Sys2Proof.Machine

/-- Settles O22: the fourth byte's event is the commit of the assembled word past the take, and the commit's two
outcomes are the two answers of `decode`. -/
theorem finalByteCommits : Obligations.FinalByteCommits := by
  intro s hc hl hn
  refine ⟨fun sEos b w hw => ?_, fun e ht he hv => ?_⟩
  · have hexec : exec (.byteFinal sEos b) s = commit w s.take := hw ▸ exec_byteFinal sEos b hl hn
    rw [hexec]
    exact ⟨fun h hd => commit_of_header (s := s.take) hd, fun c hd => commit_of_invalid (s := s.take) hd,
      decode_answers hc w⟩
  · simpa [hl, hn] using select_byteTurn ht (.inr hl) he hv

/-- Settles O46, row by row: a byte row that is accepted takes, START and RESET clear COUNT, and neither a completion nor
a commit writes it. -/
theorem countChangesOnlyByTakes : Obligations.CountChangesOnlyByTakes := by
  intro i s t h
  have same {u : State} (hu : Host.Outcome.next u = (.next t : Host.Outcome State Fault Refusal)) (n : Nat)
      (hn : u.count = n) : t.count = n := Host.Outcome.next.inj hu ▸ hn
  cases i <;> simp only [exec] at h
  case byteLead | byteSkip | byteCollect =>
    simpa [Instr.appliesIn, Instr.wf] using whenAccepted_count h fun hu => same hu _ rfl
  case byteFinal =>
    simpa [Instr.appliesIn, Instr.wf] using whenAccepted_count h commitDecoded_count
  case start | reset | nop | cmdReserved | streamIgnored => exact same h _ rfl
  case sErr | eosScan | eosCollect => exact whenAccepted_count_same h fun hu => same hu _ rfl
  case decode => exact whenAccepted_count_same h commitDecoded_count
  case hdrSyncMismatch => exact commitDecoded_count (d := .invalid .sync) h
  case hdrVRes => exact commitDecoded_count (d := .invalid .version) h
  case hdrV1LRes | hdrV2LRes | hdrV25LRes => exact commitDecoded_count (d := .invalid .layer) h
  -- The nine classes that read the ROMs before they commit.
  all_goals exact commitDecoded_count h

/-- Settles O14: `State.arm` names every register that START writes. -/
theorem startArmsALocate : Obligations.StartArmsALocate :=
  ⟨fun _ _ => rfl, fun _ _ ht => select_commandTurn ht (by decide)⟩

/-- Settles O15. -/
theorem nopChangesNothing : Obligations.NopChangesNothing :=
  ⟨fun _ _ => rfl, fun _ _ ht => select_commandTurn ht (by decide)⟩

/-- Settles O16: the reserved command is accepted as an event of the machine, and its line is accepted nowhere. -/
theorem reservedCommandChangesNothing : Obligations.ReservedCommandChangesNothing := by
  obtain ⟨_, hrefused, _⟩ := acceptedLinesRun
  exact ⟨fun _ _ => rfl, fun _ _ ht => select_commandTurn ht (by decide),
    fun s t ls rest hrun => hrefused s t ls .reserved rest hrun rfl⟩

/-- Settles O19. -/
theorem byteSkipOnlyCounts : Obligations.ByteSkipOnlyCounts :=
  fun _ hl => ⟨fun sEos _ hb => exec_byteSkip sEos hl hb,
    fun _ ht he hv hb => by simpa [hl, hb] using select_byteTurn ht (.inl hl) he hv⟩

/-- Settles O20. -/
theorem leadByteBeginsAHeader : Obligations.LeadByteBeginsAHeader :=
  fun _ hl => ⟨fun sEos => exec_byteLead sEos hl,
    fun _ ht he hv hb => by simpa [hl, hb] using select_byteTurn ht (.inl hl) he hv⟩

/-- Settles O21: NCOL 1 and 2 are no fourth byte, and the collecting stays in COLLECT. -/
theorem collectShiftsTheByteIn : Obligations.CollectShiftsTheByteIn := by
  intro s hl hn
  have hn3 : s.ncol ≠ 3#2 := by rcases hn with h | h <;> rw [h] <;> decide
  refine ⟨fun sEos b => ?_, fun e ht he hv => by simpa [hl, hn3] using select_byteTurn ht (.inr hl) he hv⟩
  rw [exec_byteCollect sEos b hl hn3, State.collect, ← hl]
  rfl

/-- Settles O23. -/
theorem endOfStreamCompletes : Obligations.EndOfStreamCompletes :=
  fun _ => ⟨fun hl => ⟨fun b => exec_eosScan b hl,
      fun _ ht he hv hs => by simpa [hl] using select_eosTurn ht (.inl hl) he hv hs⟩,
    fun hl => ⟨fun b => exec_eosCollect b hl,
      fun _ ht he hv hs => by simpa [hl] using select_eosTurn ht (.inr hl) he hv hs⟩⟩

/-- Settles O24: of the stream's levels `s_err` is looked at first, so neither the byte nor the end of the stream is. -/
theorem sourceErrorCompletes : Obligations.SourceErrorCompletes := by
  intro s hl
  refine ⟨fun sValid sEos b => exec_sErr sValid sEos b ((locating_iff _).2 hl), fun e ht he => ?_⟩
  have hsel := (select_of_streamTurn ht).trans (decodeStream_of_sErr hl he)
  exact ⟨hsel, by rw [hsel]; rfl⟩

/-- Settles O25. -/
theorem streamIsIgnoredOutsideALocate : Obligations.StreamIsIgnoredOutsideALocate := by
  refine ⟨fun _ _ _ => rfl, fun s e hl => ?_⟩
  have hout : locating s.lstate = false := (not_locating_iff _).2 hl
  exact ⟨by simp [sReady, hout], takesByte_outside_locate e hout,
    fun ht => (select_of_streamTurn ht).trans (decodeStream_outside_locate hl)⟩

end Sys2Proof.Proofs
end

section
/-! SUPPORT. The pure function `locate` case by case (40_locator.md R95), and the lines of a LOCATE (30_encoding.md R78) as
runs from the state that START arms. -/

namespace Sys2Proof.Machine

/-! ## The pure function -/

section
variable {pre : List Byte} (hpre : 0xFF#8 ∉ pre)
include hpre

theorem noLead_all : ∀ b ∈ pre, (b != 0xFF#8) = true :=
  fun _ hb => bne_iff_ne.2 fun h => hpre (h ▸ hb)

theorem dropWhile_of_noLead : pre.dropWhile (· != 0xFF#8) = [] :=
  List.dropWhile_eq_nil_iff.2 (noLead_all hpre)

theorem dropWhile_at_lead (more : List Byte) :
    (pre ++ 0xFF#8 :: more).dropWhile (· != 0xFF#8) = 0xFF#8 :: more :=
  List.dropWhile_append_of_pos (noLead_all hpre)

theorem locate_of_noLead (term : Term) : locate pre term = (locateShort term .noLead .scan 0, pre.length) := by
  rw [locate, dropWhile_of_noLead hpre, List.takeWhile_eq_self_iff.2 (noLead_all hpre), locateTail]

/-- From the first 0xFF on, `locate` looks at what follows it. -/
theorem locate_at_lead (more : List Byte) (term : Term) :
    locate (pre ++ 0xFF#8 :: more) term = locateTail term pre.length (0xFF#8 :: more) := by
  rw [locate, dropWhile_at_lead hpre, List.takeWhile_append_of_pos (noLead_all hpre)]
  simp

theorem locate_of_header (b1 b2 b3 : Byte) (rest : List Byte) (term : Term) :
    locate (pre ++ 0xFF#8 :: b1 :: b2 :: b3 :: rest) term = (.found (0xFF#8 ++ b1 ++ b2 ++ b3), pre.length + 4) :=
  locate_at_lead hpre _ term

theorem locate_of_truncated {more : List Byte} (hmore : more.length < 3) (term : Term) :
    locate (pre ++ 0xFF#8 :: more) term =
      (locateShort term .truncated .collect (more.length + 1), pre.length + 1 + more.length) := by
  rw [locate_at_lead hpre]
  match more, hmore with
  | [], _ => rfl
  | [_], _ => rfl
  | [_, _], _ => rfl

end

/-! ## The state of a locate that has found no lead byte -/

/-- `s` with a locate armed and `n` bytes skipped (R81, R84). -/
def State.scanned (s : State) (n : Nat) : State := { s.arm with count := n % 2 ^ s.cfg.wCount }

@[simp] theorem State.scanned_lstate (s : State) (n : Nat) : (s.scanned n).lstate = .scan := rfl

theorem scanned_zero (s : State) : s.scanned 0 = s.arm := by
  rw [State.scanned, Nat.zero_mod]; rfl

/-- What BYTE_SKIP does to it (R84). -/
theorem scanned_take (s : State) (n : Nat) : (s.scanned n).take = s.scanned (n + 1) := by
  simp [State.scanned, State.take, Nat.mod_add_mod]

theorem collected_scanned_count (s : State) (n : Nat) (bs : List Byte) :
    ((s.scanned n).collected bs).count = (n + bs.length) % 2 ^ s.cfg.wCount :=
  Nat.mod_add_mod n _ bs.length

/-! ## The lines of a LOCATE -/

/-- Past an edge that leaves no duty outstanding and gives the script back, the state is as it was. -/
theorem advance_eq_self {s : State} {e : Edge} (hq : s.src = Duties.none)
    (hd : dutiesAfter s e (select s e) = Duties.none) : s.advance e s.inputs = s := by
  rw [State.advance, hd, ← hq]

section
variable {s : State} (hc : configWf s.cfg = true) (hq : s.src = Duties.none)
include hc hq

theorem runLine_start : runLine s .start = .next s.arm := by
  have hsel : select s Line.start.edge = some (.start 0#32) := select_of_command rfl rfl rfl rfl
  have hadv : s.advance Line.start.edge s.inputs = s := advance_eq_self hq (by rw [hsel]; rfl)
  rw [runLine_eq .start hc (quiescent_of_none hq) rfl, hsel, hadv]
  rfl

/-- BYTE_SKIP as a line (R84). -/
theorem runLine_byte_skip (n : Nat) {b : Byte} (hb : b ≠ 0xFF#8) :
    runLine (s.scanned n) (.byte b) = .next (s.scanned (n + 1)) := by
  rw [runLine_byte (s := s.scanned n) b hc hq rfl, decodeStream_of_byte (.inl (State.scanned_lstate s n)) rfl rfl,
    ← scanned_take]
  simpa [hb] using exec_byteSkip false (State.scanned_lstate s n) hb

/-- The bytes before the lead are skipped. -/
theorem runProgram_skip {pre : List Byte} (hpre : 0xFF#8 ∉ pre) (tail : List Byte) (n : Nat) :
    runProgram (s.scanned n) (feed (pre ++ tail)) = runProgram (s.scanned (n + pre.length)) (feed tail) := by
  induction pre generalizing n with
  | nil => rfl
  | cons b rest ih =>
    obtain ⟨hb, hrest⟩ := List.ne_and_not_mem_of_not_mem_cons hpre
    calc runProgram (s.scanned n) (feed (b :: rest ++ tail))
      _ = runProgram (s.scanned (n + 1)) (feed (rest ++ tail)) :=
        runProgram_cons_of_next _ (runLine_byte_skip hc hq n (Ne.symm hb))
      _ = runProgram (s.scanned (n + (b :: rest).length)) (feed tail) := by
        rw [ih hrest, List.length_cons, Nat.add_right_comm, Nat.add_assoc]

/-- From the armed state on. -/
theorem runProgram_arm_skip {pre : List Byte} (hpre : 0xFF#8 ∉ pre) (tail : List Byte) :
    runProgram s.arm (feed (pre ++ tail)) = runProgram (s.scanned pre.length) (feed tail) := by
  rw [← scanned_zero, runProgram_skip hc hq hpre, Nat.zero_add]

/-- A header that is not complete is collected (R85, R86). -/
theorem runProgram_lead_collect (hl : s.lstate = .scan) {more : List Byte} (hmore : more.length < 3) :
    runProgram s (feed (0xFF#8 :: more)) = .next (s.collected (0xFF#8 :: more)) := by
  rw [show feed (0xFF#8 :: more) = .byte 0xFF#8 :: feed more from rfl,
    runProgram_cons_of_next _ (runLine_byte_lead hc hq hl)]
  exact runProgram_collect hc hq more (by simp; omega)

/-- A LOCATE is START, the bytes that `locate` consumes, and the terminator where one is left to write (R78). -/
theorem runProgram_locateLines {bs : List Byte} {term : Term} {o : Located} {n : Nat} {u : State}
    (hloc : locate bs term = (o, n)) (hfeed : runProgram s.arm (feed (bs.take n)) = .next u) :
    runProgram s (locateLines bs term) = runProgram u (terminator term o) := by
  rw [locateLines, runProgram_cons_of_next _ (runLine_start hc hq), runProgram_append, hloc, hfeed]

end

/-! ## What a LOCATE leaves -/

/-- The control and outcome registers, and RAW, that a locate with the outcome `o` leaves, where `raw` is the word of the
bytes taken from the lead on: what R95 asks of the steps. -/
def LocateLeaves (c : Config) (raw : Word) (t : State) (o : Located) : Prop :=
  match o with
  | .found w => t.lstate = .done ∧ t.ncol = 0#2 ∧ t.raw = w ∧
      ((∃ h, decode c w = .header h ∧ t.status = .ok ∧ t.cause = .none ∧ t.res = results w h) ∨
       (∃ x, decode c w = .invalid x ∧ t.status = .invalidHeader ∧ t.cause = x ∧ t.res = Results.zero))
  | .notFound x => t.lstate = .done ∧ t.ncol = 0#2 ∧ t.status = .syncNotFound ∧ t.cause = x ∧ t.res = Results.zero ∧
      t.raw = raw
  | .unavailable => t.lstate = .done ∧ t.ncol = 0#2 ∧ t.status = .streamUnavailable ∧ t.cause = .none ∧
      t.res = Results.zero ∧ t.raw = raw
  | .pending l n => t.lstate = l ∧ t.ncol = BitVec.ofNat 2 n ∧ t.status = .none ∧ t.cause = .none ∧
      t.res = Results.zero ∧ t.raw = raw

/-- A commit ends a locate that found its word (41_decoder.md R125). -/
theorem locateLeaves_of_commit {c : Config} {s t : State} {w : Word} (raw : Word) (h : commit w s = .next t)
    (hcfg : s.cfg = c) : LocateLeaves c raw t (.found w) := by
  subst hcfg
  rcases commitDecoded_next h with ⟨hd, hdec, rfl⟩ | ⟨x, hdec, rfl⟩
  · exact ⟨rfl, rfl, rfl, .inl ⟨hd, hdec, rfl, rfl, rfl⟩⟩
  · exact ⟨rfl, rfl, rfl, .inr ⟨x, hdec, rfl, rfl, rfl⟩⟩

/-- The cause with which the end of the stream completes a locate, by its LSTATE (R88, R89); IDLE and DONE have no locate
to complete. -/
def eosCause : LState → Cause
  | .scan => .noLead
  | .collect => .truncated
  | .idle | .done => .none

section
variable {u : State} (hc : configWf u.cfg = true) (hq : u.src = Duties.none) (hl : locating u.lstate = true)
include hc hq hl

/-- An EOS line in a locate (R88, R89). -/
theorem runLine_eos : runLine u .eos =
    .next ((u.advance Line.eos.edge u.inputs).complete .syncNotFound (eosCause u.lstate) Results.zero) := by
  have hl' := (locating_iff _).1 hl
  rw [runLine_eq .eos hc (quiescent_of_none hq) hl, select_eosTurn (streamTurn_of_no_command rfl rfl rfl) hl' rfl rfl rfl]
  rcases hl' with hl' | hl' <;> rw [hl']
  · exact exec_eosScan _ hl'
  · exact exec_eosCollect _ hl'

/-- An ERR line in a locate (R90). -/
theorem runLine_err : runLine u .err =
    .next ((u.advance Line.err.edge u.inputs).complete .streamUnavailable .none Results.zero) := by
  rw [runLine_eq .err hc (quiescent_of_none hq) hl, select_of_streamTurn (streamTurn_of_no_command rfl rfl rfl),
    decodeStream_of_sErr ((locating_iff _).1 hl) rfl]
  exact exec_sErr _ _ _ hl

/-- The terminator of a locate without four header bytes: EOS and ERR complete it, and without one it stays pending. -/
theorem runProgram_terminator (term : Term) {n : Nat} (hn : u.ncol = BitVec.ofNat 2 n) (hst : u.status = .none)
    (hca : u.cause = .none) (hr : u.res = Results.zero) :
    ∃ t, runProgram u (terminator term (locateShort term (eosCause u.lstate) u.lstate n)) = .next t ∧ t.cfg = u.cfg ∧
      t.inputs = u.inputs ∧ t.count = u.count ∧
      LocateLeaves u.cfg u.raw t (locateShort term (eosCause u.lstate) u.lstate n) := by
  cases term
  case eos =>
    exact ⟨_, (runProgram_singleton u .eos).trans (runLine_eos hc hq hl), rfl, rfl, rfl, rfl, rfl, rfl, rfl, rfl, rfl⟩
  case err =>
    exact ⟨_, (runProgram_singleton u .err).trans (runLine_err hc hq hl), rfl, rfl, rfl, rfl, rfl, rfl, rfl, rfl, rfl⟩
  case opened => exact ⟨u, rfl, rfl, rfl, rfl, rfl, hn, hst, hca, hr, rfl⟩

end

/-- The whole of what a LOCATE of `bs` reaches, from `s`. -/
def LocateReaches (s : State) (bs : List Byte) (term : Term) : Prop :=
  ∃ t, runProgram s (locateLines bs term) = .next t ∧ t.cfg = s.cfg ∧ t.inputs = s.inputs ∧
    t.count = (locate bs term).2 % 2 ^ s.cfg.wCount ∧
    LocateLeaves s.cfg (assemble (bs.dropWhile (· != 0xFF#8))) t (locate bs term).1

section
variable {s : State} (hc : configWf s.cfg = true) (hq : s.src = Duties.none) {pre : List Byte} (hpre : 0xFF#8 ∉ pre)
  (term : Term)
include hc hq hpre

theorem locateReaches_of_noLead : LocateReaches s pre term := by
  have hloc := locate_of_noLead hpre term
  have hfeed : runProgram s.arm (feed (pre.take pre.length)) = .next (s.scanned pre.length) := by
    have hskip := runProgram_arm_skip hc hq hpre []
    rw [List.append_nil] at hskip
    rw [List.take_length]
    exact hskip
  rw [LocateReaches, runProgram_locateLines hc hq hloc hfeed, hloc, dropWhile_of_noLead hpre]
  exact runProgram_terminator (u := s.scanned pre.length) hc hq rfl term rfl rfl rfl rfl

theorem locateReaches_of_header (b1 b2 b3 : Byte) (rest : List Byte) :
    LocateReaches s (pre ++ 0xFF#8 :: b1 :: b2 :: b3 :: rest) term := by
  have hloc := locate_of_header hpre b1 b2 b3 rest term
  obtain ⟨t, ht⟩ := commit_answers (s := ((s.scanned pre.length).collected [0xFF#8, b1, b2]).take)
    (0xFF#8 ++ b1 ++ b2 ++ b3) hc
  have hfeed : runProgram s.arm (feed ((pre ++ 0xFF#8 :: b1 :: b2 :: b3 :: rest).take (pre.length + 4))) = .next t := by
    rw [List.take_length_add_append, runProgram_arm_skip hc hq hpre]
    exact (runProgram_header (s := s.scanned pre.length) hc hq b1 b2 b3 rfl).trans ht
  obtain ⟨_, _, _, hcount, hcfg, _, hinputs⟩ := commitDecoded_frame ht
  refine ⟨t, runProgram_locateLines hc hq hloc hfeed, hcfg, hinputs, ?_, ?_⟩
  · rw [hcount, collected_take_count, hloc]
    exact Nat.mod_add_mod ..
  · rw [hloc]
    exact locateLeaves_of_commit _ ht rfl

theorem locateReaches_of_truncated {more : List Byte} (hmore : more.length < 3) :
    LocateReaches s (pre ++ 0xFF#8 :: more) term := by
  have hloc := locate_of_truncated hpre hmore term
  have hfeed : runProgram s.arm (feed ((pre ++ 0xFF#8 :: more).take (pre.length + 1 + more.length))) =
      .next ((s.scanned pre.length).collected (0xFF#8 :: more)) := by
    rw [List.take_of_length_le (by simp; omega), runProgram_arm_skip hc hq hpre]
    exact runProgram_lead_collect (s := s.scanned pre.length) hc hq rfl hmore
  obtain ⟨t, ht, hcfg, hinputs, hcount, hleaves⟩ :=
    runProgram_terminator (u := (s.scanned pre.length).collected (0xFF#8 :: more)) hc hq rfl term
      (n := more.length + 1) rfl rfl rfl rfl
  refine ⟨t, (runProgram_locateLines hc hq hloc hfeed).trans ht, hcfg, hinputs, ?_, ?_⟩
  · rw [hcount, collected_scanned_count, hloc, List.length_cons, Nat.add_assoc, Nat.add_comm 1]
  · rw [hloc, dropWhile_at_lead hpre]
    exact hleaves

end

end Sys2Proof.Machine

namespace Sys2Proof.Proofs

open Sys2Proof.Machine

/-- Settles O27: `locate` splits its list before the first 0xFF, and the number of bytes after that decides. -/
theorem locateFindsTheFirstLead : Obligations.LocateFindsTheFirstLead := by
  intro pre term h
  have hpre : 0xFF#8 ∉ pre := List.forall_mem_ne'.1 h
  refine ⟨?_, fun b1 b2 b3 rest => locate_of_header hpre b1 b2 b3 rest term, fun more hmore => ?_⟩
  · rw [locate_of_noLead hpre]; cases term <;> rfl
  · rw [locate_of_truncated hpre hmore]; cases term <;> rfl

/-- Settles O28: the run follows the three cases of `locate`. The bytes before the first 0xFF are skipped; three bytes after
it end in the commit, fewer are collected and leave the rest to the terminator. -/
theorem locateRunsAsThePureFunction : Obligations.LocateRunsAsThePureFunction := by
  intro s bs term hc hq
  change LocateReaches s bs term
  by_cases hlead : 0xFF#8 ∈ bs
  · obtain ⟨pre, more, rfl, hpre⟩ := List.eq_append_cons_of_mem hlead
    match more with
    | b1 :: b2 :: b3 :: rest => exact locateReaches_of_header hc hq hpre term b1 b2 b3 rest
    | [] | [_] | [_, _] => exact locateReaches_of_truncated hc hq hpre term (by simp)
  · exact locateReaches_of_noLead hc hq hlead term

/-- Settles O29: each replayed byte is the word's quotient by the bytes behind it, modulo 256. -/
theorem replayOffersTheBytesAfterTheLead : Obligations.ReplayOffersTheBytesAfterTheLead := by
  intro b0 b1 b2 b3
  have key : ∀ (lo : Nat) (b : Byte),
      (b0.toNat * 2 ^ 24 + b1.toNat * 2 ^ 16 + b2.toNat * 2 ^ 8 + b3.toNat) / 2 ^ lo % 2 ^ 8 = b.toNat →
      (b0 ++ b1 ++ b2 ++ b3).extractLsb' lo 8 = b := fun lo b h =>
    BitVec.eq_of_toNat_eq ((toNat_field _ lo 8).trans (by rwa [toNat_append_bytes]))
  have h1 := b1.isLt
  have h2 := b2.isLt
  have h3 := b3.isLt
  rw [replayBytes, key 16 b1 (by omega), key 8 b2 (by omega), key 0 b3 (by omega)]

end Sys2Proof.Proofs
end

section
/-! SUPPORT. The verdict of `decode` as conditions on the word's codes and indices (41_decoder.md R101 to R116), the record
of a decoded word, and the outcome of each header class (30_encoding.md R72). -/

namespace Sys2Proof

/-! ## The codes and the one-bit fields (R60, R63, R64) -/

@[simp] theorem Version.code_inj {v v' : Version} : v.code = v'.code ↔ v = v' :=
  ⟨fun h => Option.some.inj (by rw [← versionOfCode_code, h, versionOfCode_code]), congrArg _⟩

@[simp] theorem Layer.code_inj {l l' : Layer} : l.code = l'.code ↔ l = l' :=
  ⟨fun h => Option.some.inj (by rw [← layerOfCode_code, h, layerOfCode_code]), congrArg _⟩

theorem Layer.code_ne_reserved (l : Layer) : l.code ≠ 0b00#2 := by cases l <;> decide

/-- `headerWord_cases` with the reserved layer code told apart: the four ways into the checks of `decode` (R101). -/
theorem headerWord_shapes (w : Word) :
    syncField w ≠ syncPattern ∨ (∃ lay f, w = headerWord syncPattern 0b01#2 lay f) ∨
      (∃ v f, w = headerWord syncPattern (Version.code v) 0b00#2 f) ∨
      ∃ v l f, w = headerWord syncPattern (Version.code v) (Layer.code l) f := by
  rcases headerWord_cases w with hs | hv | ⟨v, lay, f, rfl⟩
  · exact .inl hs
  · exact .inr (.inl hv)
  · rcases layerCode_cases lay with rfl | ⟨l, rfl⟩
    · exact .inr (.inr (.inl ⟨v, f, rfl⟩))
    · exact .inr (.inr (.inr ⟨v, l, f, rfl⟩))

theorem field_one_eq_zero_iff (w : Word) (i : Nat) : field w i 1 = 0#1 ↔ w.getLsbD i = false := by
  have h : ∀ b : BitVec 1, b = 0#1 ↔ (b == 1#1) = false := by decide
  rw [BitVec.getLsbD_eq_extractLsb']
  exact h _

end Sys2Proof

namespace Sys2Proof.Machine

/-! ## The checks of `decode`, in their order (R101 to R105, R108) -/

section
variable {c : Config} {v : Version} {l : Layer} {f : HeaderFields}

theorem decode_of_sync_ne {w : Word} (h : syncField w ≠ syncPattern) : decode c w = .invalid .sync := by
  simp [decode, h]

theorem decode_reservedVersion (lay : BitVec 2) :
    decode c (headerWord syncPattern 0b01#2 lay f) = .invalid .version := by
  simp [decode, (versionOfCode_none _).2 rfl]

theorem decode_reservedLayer : decode c (headerWord syncPattern v.code 0b00#2 f) = .invalid .layer := by
  simp [decode, (layerOfCode_none _).2 rfl]

theorem decodeRest_of_reservedSri (h : f.sri = 0b11#2) : decodeRest c v l f = .invalid .sampleRate := by
  simp [decodeRest, h]

theorem decodeRest_of_bri_outside (hc : configWf c = true) (hs : f.sri ≠ 0b11#2)
    (hb : c.rowLen v.vclass l ≤ f.bri.toNat) : decodeRest c v l f = .invalid .bitrate := by
  obtain ⟨hz, hsr, _⟩ := readSr_some hc (v := v) (sri_lt_three hs)
  simp [decodeRest, hs, hsr, hb]

/-- The last two checks passed, both ROM reads answer (20_memory.md R41, R42). -/
theorem decodeRest_of_inside (hc : configWf c = true) (hs : f.sri ≠ 0b11#2) (hb : f.bri.toNat < c.rowLen v.vclass l) :
    ∃ kbps hz, c.readBr v.vclass l f.bri.toNat = some kbps ∧ c.readSr v f.sri.toNat = some hz ∧
      decodeRest c v l f = .header (frameHeader v l f kbps hz) := by
  obtain ⟨kbps, hbr, _⟩ := readBr_some hc hb
  obtain ⟨hz, hsr, _⟩ := readSr_some hc (v := v) (sri_lt_three hs)
  exact ⟨kbps, hz, hbr, hsr, decodeRest_of_reads hs hb hbr hsr⟩

end

/-- The indices outside a row of BR_ROM: 15, and in a short row 14 (R107, R108). -/
theorem rowLen_le_iff (c : Config) (k : VClass) (l : Layer) (i : BitVec 4) :
    c.rowLen k l ≤ i.toNat ↔ i = 15#4 ∨ i = 14#4 ∧ (k, l) ∈ c.shortRows := by
  have h14 : ∀ i : BitVec 4, 14 ≤ i.toNat ↔ i = 15#4 ∨ i = 14#4 := by decide
  have h15 : ∀ i : BitVec 4, 15 ≤ i.toNat ↔ i = 15#4 := by decide
  by_cases hshort : (k, l) ∈ c.shortRows
  · simp [Config.rowLen, h14, hshort]
  · simp [Config.rowLen, h15, hshort]

/-! ## When each verdict is given (R114, R115) -/

/-- The condition of each cause: its own check fails and every check before it passes (R114). The last line
is no answer of `decode`: no failure, and the two causes of a locate (60_exceptions.md R161). -/
def FailsFirst (c : Config) (w : Word) : Cause → Prop
  | .sync => syncField w ≠ syncPattern
  | .version => syncField w = syncPattern ∧ versionCode w = 0b01#2
  | .layer => syncField w = syncPattern ∧ versionCode w ≠ 0b01#2 ∧ layerCode w = 0b00#2
  | .sampleRate => syncField w = syncPattern ∧ versionCode w ≠ 0b01#2 ∧ layerCode w ≠ 0b00#2 ∧
      (headerFields w).sri = 0b11#2
  | .bitrate => syncField w = syncPattern ∧ versionCode w ≠ 0b01#2 ∧ layerCode w ≠ 0b00#2 ∧
      (headerFields w).sri ≠ 0b11#2 ∧ ∃ (v : Version) (l : Layer), v.code = versionCode w ∧ l.code = layerCode w ∧
        c.rowLen v.vclass l ≤ (headerFields w).bri.toNat
  | .none | .noLead | .truncated => False

/-- Every check passes (R115). -/
def PassesChecks (c : Config) (w : Word) : Prop :=
  syncField w = syncPattern ∧ ∃ (v : Version) (l : Layer), versionCode w = v.code ∧ layerCode w = l.code ∧
    (headerFields w).sri ≠ 0b11#2 ∧ (headerFields w).bri.toNat < c.rowLen v.vclass l

/-- In a class that is not reserved the two index checks decide (R105, R108). -/
theorem decodeRest_invalid_iff {c : Config} (hc : configWf c = true) {v : Version} {l : Layer} {f : HeaderFields}
    {x : Cause} : decodeRest c v l f = .invalid x ↔
      x = .sampleRate ∧ f.sri = 0b11#2 ∨ x = .bitrate ∧ f.sri ≠ 0b11#2 ∧ c.rowLen v.vclass l ≤ f.bri.toNat := by
  rcases decodeRest_cases hc v l f with ⟨hs, e⟩ | ⟨hs, hb, e⟩ | ⟨hs, hb, _, _, _, _, _, _, e⟩ <;> rw [e]
  · simp [hs, eq_comm]
  · simp [hs, hb, eq_comm]
  · simp [hs, Nat.not_le.2 hb]

theorem decodeRest_header_iff {c : Config} (hc : configWf c = true) {v : Version} {l : Layer} {f : HeaderFields} :
    (∃ h, decodeRest c v l f = .header h) ↔ f.sri ≠ 0b11#2 ∧ f.bri.toNat < c.rowLen v.vclass l := by
  refine ⟨fun ⟨h, e⟩ => ?_, fun ⟨hs, hb⟩ => ?_⟩
  · obtain ⟨_, _, _, _, _, hs, hb⟩ := decodeRest_header e
    exact ⟨hs, hb⟩
  · obtain ⟨kbps, hz, _, _, e⟩ := decodeRest_of_inside hc hs hb
    exact ⟨_, e⟩

theorem decode_invalid_iff {c : Config} (hc : configWf c = true) (w : Word) (x : Cause) :
    decode c w = .invalid x ↔ FailsFirst c w x := by
  rcases headerWord_shapes w with hs | ⟨lay, f, rfl⟩ | ⟨v, f, rfl⟩ | ⟨v, l, f, rfl⟩
  · rw [decode_of_sync_ne hs]
    cases x <;> simp [FailsFirst, hs]
  · rw [decode_reservedVersion]
    cases x <;> simp [FailsFirst]
  · rw [decode_reservedLayer]
    cases x <;> simp [FailsFirst, code_ne_reserved]
  · rw [decode_headerWord, decodeRest_invalid_iff hc]
    cases x <;> simp [FailsFirst, code_ne_reserved, Layer.code_ne_reserved]

theorem decode_header_iff {c : Config} (hc : configWf c = true) (w : Word) :
    (∃ h, decode c w = .header h) ↔ PassesChecks c w := by
  rcases headerWord_shapes w with hs | ⟨lay, f, rfl⟩ | ⟨v, f, rfl⟩ | ⟨v, l, f, rfl⟩
  · simp [decode_of_sync_ne hs, PassesChecks, hs]
  · simp [decode_reservedVersion, PassesChecks, (code_ne_reserved _).symm]
  · simp [decode_reservedLayer, PassesChecks, (Layer.code_ne_reserved _).symm]
  · rw [decode_headerWord, decodeRest_header_iff hc]
    simp [PassesChecks]

/-! ## The record of a decoded word (R100, R110, R116) -/

theorem channelModeOf_inj : ∀ {a b : BitVec 2}, channelModeOf a = channelModeOf b → a = b := by decide
theorem emphasisOf_inj : ∀ {a b : BitVec 2}, emphasisOf a = emphasisOf b → a = b := by decide

/-- A record keeps the version, the layer and every field it was made of. -/
theorem frameHeader_inj {v v' : Version} {l l' : Layer} {f f' : HeaderFields} {br br' sr sr' : Nat}
    (h : frameHeader v l f br sr = frameHeader v' l' f' br' sr') : v = v' ∧ l = l' ∧ f = f' := by
  have flag : ∀ a b : BitVec 1, decide (a = 1#1) = decide (b = 1#1) → a = b := by decide
  obtain ⟨prot, bri, sri, pad, priv, mode, modext, copy, orig, emph⟩ := f
  obtain ⟨prot', bri', sri', pad', priv', mode', modext', copy', orig', emph'⟩ := f'
  simp only [frameHeader, FrameHeader.mk.injEq] at h
  obtain ⟨rfl, rfl, rfl, _, rfl, _, rfl, _, hpad, hpriv, hmode, rfl, hcopy, horig, hemph⟩ := h
  refine ⟨rfl, rfl, ?_⟩
  rw [flag _ _ hpad, flag _ _ hpriv, channelModeOf_inj hmode, flag _ _ hcopy, flag _ _ horig, emphasisOf_inj hemph]

/-- A record determines its word (R116). -/
theorem decode_header_inj {c : Config} {w w' : Word} {h : FrameHeader} (e : decode c w = .header h)
    (e' : decode c w' = .header h) : w = w' := by
  obtain ⟨v, l, kbps, hz, hw, _, _, _, hh, _⟩ := decode_header e
  obtain ⟨v', l', kbps', hz', hw', _, _, _, hh', _⟩ := decode_header e'
  obtain ⟨rfl, rfl, hf⟩ := frameHeader_inj (hh.symm.trans hh')
  rw [hw, hw', hf]

/-! ## Free format (R109) -/

/-- Bitrate 0 makes no whole slot, so the padding is the length (42_framesize.md R141). -/
theorem frameLengthSlots_of_bitrate_zero {h : FrameHeader} (hb : h.bitrateKbps = 0) :
    frameLengthSlots h = if h.padding then 1 else 0 := by
  simp [frameLengthSlots, slotsOf, hb]

/-! ## DECODE and the header classes (R125, R126; 30_encoding.md R72) -/

theorem cReady_decode_iff {s : State} {e : Edge} (hop : e.cOp = 0b10#2) : cReady s e = !locating s.lstate := by
  simp [cReady, hop]

/-- Outside a locate DECODE is accepted, and takes the cycle from the stream (R126). -/
theorem select_decodeTurn {s : State} {e : Edge} (h : CommandTurn e 0b10#2) (hl : locating s.lstate = false) :
    cReady s e = true ∧ select s e = some (.decode e.cWord) ∧ takesByte (select s e) = false := by
  obtain ⟨hr, hs, hv, hop⟩ := h
  have hc : cReady s e = true := by rw [cReady_decode_iff hop, hl]; rfl
  have hsel := select_of_command hr hs hv hc
  rw [hop] at hsel
  exact ⟨hc, hsel, takesByte_outside_locate e hl⟩

/-- A class that is not reserved commits what `decodeRest` answers for its fields. -/
theorem exec_classOf_of_header {s : State} {v : Version} {l : Layer} {f : HeaderFields} {h : FrameHeader}
    (e : decodeRest s.cfg v l f = .header h) :
    exec (classOf v l f) s = .next ((s.setRaw (headerWord syncPattern v.code l.code f)).complete .ok .none
      (results (headerWord syncPattern v.code l.code f) h)) := by
  rw [exec_classOf, commitClass, e]; rfl

theorem exec_classOf_of_invalid {s : State} {v : Version} {l : Layer} {f : HeaderFields} {x : Cause}
    (e : decodeRest s.cfg v l f = .invalid x) :
    exec (classOf v l f) s =
      .next ((s.setRaw (headerWord syncPattern v.code l.code f)).complete .invalidHeader x Results.zero) := by
  rw [exec_classOf, commitClass, e]; rfl

end Sys2Proof.Machine

namespace Sys2Proof.Proofs

open Sys2Proof.Machine

/-- Settles O17: DECODE outside a locate is the commit of its word, whose two outcomes are the two answers of `decode`. -/
theorem decodeCommitsItsWord : Obligations.DecodeCommitsItsWord := by
  refine ⟨fun s w hc hl => ?_, fun s e ht =>
    ⟨fun hl => select_decodeTurn ht ((not_locating_iff _).2 hl), fun hl => ?_⟩⟩
  · rw [exec_decode_outside_locate w hl]
    exact ⟨fun h e => commit_of_header e, fun x e => commit_of_invalid e, decode_answers hc w⟩
  · obtain ⟨_, _, _, hop⟩ := ht
    rw [cReady_decode_iff hop, (locating_iff _).2 hl]
    rfl

/-- Settles O30: each cause is given exactly where its check is the first that fails, and the two examples are words that
fail two checks. -/
theorem causePriority : Obligations.CausePriority := by
  intro c w hc
  have verdict := decode_invalid_iff hc
  refine ⟨verdict w .sync, verdict w .version, verdict w .layer, verdict w .sampleRate, verdict w .bitrate, ?_, ?_⟩
  · exact (verdict _ .sampleRate).2 ⟨by decide, by decide, by decide, by decide⟩
  · exact (verdict _ .version).2 ⟨by decide, by decide⟩

/-- Settles O31: a word that passes every check decodes, and every other answer is a cause. -/
theorem decodeSucceedsExactlyWhen : Obligations.DecodeSucceedsExactlyWhen :=
  fun _ w hc => ⟨decode_header_iff hc w, (decode_answers hc w).resolve_left⟩

/-- Settles O32: the record is `frameHeader` of the word's own fields, its codes those of the word. -/
theorem decodedFieldsAreTheWordsBits : Obligations.DecodedFieldsAreTheWordsBits := by
  intro c w h e
  obtain ⟨v, l, kbps, hz, hw, hlay, hbr, hsr, rfl, _⟩ := decode_header e
  have hver : versionCode w = v.code := by rw [hw, versionCode_headerWord]
  have bit : ∀ i, decide (field w i 1 = 1#1) = w.getLsbD i := fun i => (BitVec.getLsbD_eq_extractLsb' w i).symm
  have mode {a : BitVec 2} (ha : field w 6 2 = a) : channelModeOf (field w 6 2) = channelModeOf a := by rw [ha]
  have emph {a : BitVec 2} (ha : field w 0 2 = a) : emphasisOf (field w 0 2) = emphasisOf a := by rw [ha]
  exact ⟨hver.symm, hlay.symm, rfl, decide_eq_true_iff.trans (field_one_eq_zero_iff w 16), rfl, rfl, hbr,
    hsr, bit 9, bit 8, mode, mode, mode, mode, rfl, bit 3, bit 2, emph, emph, emph, emph⟩

/-- Settles O33: the class of the word is settled by its codes and its two lookups answer; the record, in turn, keeps
every field. -/
theorem fieldRoundTrip : Obligations.FieldRoundTrip := by
  refine ⟨fun c v l f hc hs hb => ?_, fun c w w' h => decode_header_inj⟩
  obtain ⟨kbps, hz, hbr, hsr, e⟩ := decodeRest_of_inside hc hs hb
  exact ⟨kbps, hz, hbr, hsr, (decode_headerWord c v l f).trans e⟩

/-- Settles O37: the two lookups give the record, and its word and fields give the results. -/
theorem headerClassCompletesOk : Obligations.HeaderClassCompletesOk := by
  intro s v l f kbps hz hs hb hbr hsr
  rw [exec_classOf_of_header (decodeRest_of_reads hs hb hbr hsr), results_headerWord, frameSizeBytes,
    frameLengthSlots_frameHeader]
  cases l <;> rfl

/-- Settles O38: index 3 fails the first of the two checks that the class leaves, an index outside the row the second. -/
theorem headerClassFailsItsIndices : Obligations.HeaderClassFailsItsIndices := by
  intro s v l f hc x hx
  apply exec_classOf_of_invalid
  rcases hx with ⟨hs, rfl⟩ | ⟨hs, hb, rfl⟩
  · exact decodeRest_of_reservedSri hs
  · exact decodeRest_of_bri_outside hc hs ((rowLen_le_iff _ _ _ _).2 hb)

/-- Settles O43: index 0 stands in every row, whose entry there is 0 (00_scope.md R6). -/
theorem freeFormat : Obligations.FreeFormat := by
  refine ⟨fun c v l f hc hs hb => ?_, fun h hb => ?_⟩
  · have hin : f.bri.toNat < c.rowLen v.vclass l := by
      rw [hb]
      rcases rowLen_cases c v.vclass l with e | e <;> rw [e] <;> decide
    obtain ⟨kbps, hz, hbr, _, e⟩ := decodeRest_of_inside hc hs hin
    rw [hb] at hbr
    obtain rfl : kbps = 0 := Option.some.inj (hbr.symm.trans (readBr_zero hc _ _))
    exact ⟨_, (decode_headerWord c v l f).trans e, rfl, by rw [frameLengthSlots_frameHeader]; simp⟩
  · rw [frameSizeBytes, frameLengthSlots_of_bitrate_zero hb]
    cases h.padding <;> exact ⟨rfl, rfl⟩

/-- Settles O35: a commit reads the configuration and the word, and writes every register that the claim names. -/
theorem decodeIsPure : Obligations.DecodeIsPure := by
  intro s s' w hc hcfg hl hl'
  rw [exec_decode_outside_locate w hl, exec_decode_outside_locate w hl']
  rcases decode_answers hc w with ⟨h, e⟩ | ⟨x, e⟩
  · exact ⟨_, _, commit_of_header e, commit_of_header (hcfg ▸ e), rfl, rfl, rfl, rfl, rfl, rfl⟩
  · exact ⟨_, _, commit_of_invalid e, commit_of_invalid (hcfg ▸ e), rfl, rfl, rfl, rfl, rfl, rfl⟩

/-- Settles O39: each of the five commits its encoded word as invalid, with its own cause. -/
theorem reservedClassesFail : Obligations.ReservedClassesFail := by
  refine fun s f lay w => ⟨fun i hi p hp => ?_, fun p hp => ?_, fun _ => rfl⟩
  · rcases hi with rfl | rfl | rfl <;> cases hp <;> rfl
  · cases hp; rfl

end Sys2Proof.Proofs
end

section
/-! SUPPORT. The frame-size unit (42_framesize.md): the operands that a successful decode hands it, the bound of its product
(R143), and the ranges of its quotient with the default ROMs (R146; log 13). -/

namespace Sys2Proof.Machine

/-! ## The operands (R140, R141) -/

/-- A decoded record holds the two entries that its own indices read, and its word's layer code and padding bit. -/
theorem decode_header_operands {c : Config} {w : Word} {h : FrameHeader} (e : decode c w = .header h) :
    c.readBr h.mpegVersion.vclass h.layer h.bitrateIndex.toNat = some h.bitrateKbps ∧
    c.readSr h.mpegVersion h.sampleRateIndex.toNat = some h.sampleRateHz ∧ layerCode w = h.layer.code ∧
    frameLengthSlots h =
      samplesPerFrameFactor h.layer * h.bitrateKbps * 1000 / h.sampleRateHz + (field w 9 1).toNat := by
  obtain ⟨v, l, kbps, hz, _, hlay, hbr, hsr, rfl, _⟩ := decode_header e
  exact ⟨hbr, hsr, hlay, frameLengthSlots_frameHeader v l (headerFields w) kbps hz⟩

theorem samplesPerFrameFactor_of_code (l : Layer) : samplesPerFrameFactor l = if l.code = 0b11#2 then 12 else 36 := by
  cases l <;> rfl

theorem samplesPerFrameFactor_le (l : Layer) : samplesPerFrameFactor l ≤ 36 := by cases l <;> decide

/-- The product's bound comes from the width of a bitrate entry (R143; 00_scope.md R6). -/
theorem product_le {c : Config} (hc : configWf c = true) {k : VClass} {l : Layer} {kbps : Nat}
    (hk : kbps ∈ c.brRom.row k l) : samplesPerFrameFactor l * kbps * 1000 ≤ 36 * (2 ^ c.wBr - 1) * 1000 := by
  have hfactor := samplesPerFrameFactor_le l
  have hkbps := Nat.le_sub_one_of_lt (brRow_lt hc hk)
  gcongr

/-! ## The default ROMs (41_decoder.md R121, R122) -/

theorem default_wf : configWf Config.default = true := by decide

theorem default_brRow_nodup (k : VClass) (l : Layer) : (Config.default.brRom.row k l).Nodup := by
  cases k <;> cases l <;> decide

/-- Only index 0 is free format (R109): a row holds its 0 once. -/
theorem default_kbps_ne_zero {k : VClass} {l : Layer} {i kbps : Nat} (hbr : Config.default.readBr k l i = some kbps)
    (hi : i ≠ 0) : kbps ≠ 0 := by
  rintro rfl
  have hzero := readBr_zero default_wf k l
  have hin : 0 < (Config.default.brRom.row k l).length := (List.getElem?_eq_some_iff.1 hzero).1
  exact hi ((List.getElem?_inj hin (default_brRow_nodup k l)).1 (hzero.trans hbr.symm)).symm

/-- V1's greatest product is that of Layer II's last entry, its least, free format apart, that of Layer I's entry 1. -/
theorem default_factor_mul_kbps_c1 (l : Layer) : ∀ kbps ∈ Config.default.brRom.row .c1 l,
    samplesPerFrameFactor l * kbps ≤ 36 * 384 ∧ (kbps ≠ 0 → 12 * 32 ≤ samplesPerFrameFactor l * kbps) := by
  cases l <;> decide

/-- For V2 and V2_5 both come from the rows of Layers II and III. -/
theorem default_factor_mul_kbps_c2 (l : Layer) : ∀ kbps ∈ Config.default.brRom.row .c2 l,
    samplesPerFrameFactor l * kbps ≤ 36 * 144 ∧ (kbps ≠ 0 → 36 * 8 ≤ samplesPerFrameFactor l * kbps) := by
  cases l <;> decide

theorem vclass_of_ne_v1 {v : Version} (hv : v ≠ .v1) : v.vclass = .c2 := by
  cases v
  case v1 => exact absurd rfl hv
  case v2 => rfl
  case v25 => rfl

theorem default_rate_v1 : ∀ hz ∈ Config.default.srRom.row .v1, 32000 ≤ hz ∧ hz ≤ 48000 := by decide

theorem default_rate_low {v : Version} (hv : v ≠ .v1) : ∀ hz ∈ Config.default.srRom.row v, 8000 ≤ hz ∧ hz ≤ 24000 := by
  cases v
  case v1 => exact absurd rfl hv
  case v2 => decide
  case v25 => decide

section
variable {v : Version} {l : Layer} {kbps hz : Nat} (hk : kbps ∈ Config.default.brRom.row v.vclass l)
  (hh : hz ∈ Config.default.srRom.row v)
include hk hh

/-- R146's bounds on the quotient, cleared of the division. V1's rows hold the greater bitrates and the faster rates, so
they are bounded apart from the rest. -/
theorem default_product_bounds : samplesPerFrameFactor l * kbps * 1000 ≤ hz * 648 ∧
    (v = .v1 → samplesPerFrameFactor l * kbps * 1000 ≤ hz * 432) ∧
    (kbps ≠ 0 → 8 * hz ≤ samplesPerFrameFactor l * kbps * 1000) := by
  by_cases hv : v = .v1
  · subst hv
    obtain ⟨hmax, hmin⟩ := default_factor_mul_kbps_c1 l kbps hk
    obtain ⟨hslow, hfast⟩ := default_rate_v1 hz hh
    exact ⟨by omega, fun _ => by omega, fun h0 => by have := hmin h0; omega⟩
  · rw [vclass_of_ne_v1 hv] at hk
    obtain ⟨hmax, hmin⟩ := default_factor_mul_kbps_c2 l kbps hk
    obtain ⟨hslow, hfast⟩ := default_rate_low hv hz hh
    exact ⟨by omega, fun h1 => absurd h1 hv, fun h0 => by have := hmin h0; omega⟩

theorem default_quotient_bounds : samplesPerFrameFactor l * kbps * 1000 / hz ≤ 648 ∧
    (v = .v1 → samplesPerFrameFactor l * kbps * 1000 / hz ≤ 432) ∧
    (kbps ≠ 0 → 8 ≤ samplesPerFrameFactor l * kbps * 1000 / hz) := by
  obtain ⟨hle, hle_v1, hge⟩ := default_product_bounds hk hh
  have hpos : 0 < hz := Nat.pos_of_ne_zero (srRow_bounds default_wf hh).1
  exact ⟨Nat.div_le_of_le_mul hle, fun h1 => Nat.div_le_of_le_mul (hle_v1 h1),
    fun h0 => (Nat.le_div_iff_mul_le hpos).2 (hge h0)⟩

end

end Sys2Proof.Machine

namespace Sys2Proof.Proofs

open Sys2Proof.Machine

/-- Settles O42: the layer code is 11 for Layer I alone, whose factor is 12; a well-formed row has no rate 0. -/
theorem frameSizeLaws : Obligations.FrameSizeLaws := by
  intro c w h hc e
  obtain ⟨_, hsr, hlay, hslots⟩ := decode_header_operands e
  have hfactor : samplesPerFrameFactor h.layer = if layerCode w = 0b11#2 then 12 else 36 := by
    rw [hlay, samplesPerFrameFactor_of_code]
  refine ⟨rfl, fun hi => ?_, fun hi => ?_, Nat.pos_of_ne_zero (srRow_bounds hc (readSr_mem hsr)).1⟩
  · rw [hslots, hfactor.trans (if_pos hi)]; rfl
  · rw [hslots, hfactor.trans (if_neg hi)]; rfl

/-- Settles O44: the quotient never exceeds the product, and at W_BR = 9 the product is below 2^25. -/
theorem productBound : Obligations.ProductBound := by
  intro c w h product hc e hproduct
  obtain ⟨hbr, _, _, _⟩ := decode_header_operands e
  have hle : product ≤ 36 * (2 ^ c.wBr - 1) * 1000 := hproduct.trans_le (product_le hc (readBr_mem hbr))
  have hquot : product / h.sampleRateHz ≤ product := Nat.div_le_self ..
  refine ⟨hle, hquot, fun h9 => ?_⟩
  rw [h9] at hle
  exact ⟨hle, Nat.mod_eq_of_lt (by omega), Nat.mod_eq_of_lt (by omega)⟩

/-- Settles O45: the default rows bound the quotient, padding adds at most 1, and each extreme is the size of its word. -/
theorem defaultRomRanges : Obligations.DefaultRomRanges := by
  refine ⟨fun w h e => ?_, ⟨_, rfl, rfl, rfl⟩, ⟨_, rfl, rfl, rfl⟩, ⟨_, rfl, rfl⟩, ⟨_, rfl, rfl⟩⟩
  obtain ⟨hbr, hsr, _, hslots⟩ := decode_header_operands e
  obtain ⟨hle, hle_v1, hge⟩ := default_quotient_bounds (readBr_mem hbr) (readSr_mem hsr)
  have hpad := (field w 9 1).isLt
  have hbytes : frameSizeBytes h = 4 * frameLengthSlots h := rfl
  refine ⟨by omega, by omega, by omega, fun h1 => ?_, fun hi => ?_⟩
  · have := hle_v1 h1
    omega
  · have := hge (default_kbps_ne_zero hbr (BitVec.toNat_ne_iff_ne.2 hi))
    omega

end Sys2Proof.Proofs
end

section
/-! SUPPORT. The two sides of DONE (60_exceptions.md R165, R166): the events that lead out of it or act in it, and what
each way into it leaves. -/

namespace Sys2Proof.Machine

/-- Every way a step answers at a given edge: `step_cases` where the script's next edge is known. -/
theorem step_edge_cases {s t : State} {e : Edge} {rest : List Edge} (hi : s.inputs = e :: rest) (h : step s = .next t) :
    (select s e = none ∧ t = s.advance e rest) ∨ ∃ i, select s e = some i ∧ exec i (s.advance e rest) = .next t := by
  obtain ⟨_, ⟨h0, _⟩ | ⟨_, _, h1, _, hedge⟩⟩ := step_cases h
  · rw [hi] at h0; cases h0
  · rw [hi] at h1; cases h1
    exact hedge

/-- An event in DONE is one of the ways out of R166, a DECODE that replaces the outcome, or changes nothing: the rows
of a locate do not apply there. -/
theorem exec_in_done {i : Instr} {s t : State} (h : exec i s = .next t) (hi : ∀ w, encode i ≠ .header w)
    (hs : s.lstate = .done) :
    t = s ∨ ((∃ w, i = .start w) ∧ t.lstate = .scan) ∨ ((∃ w, i = .decode w) ∧ t.lstate = .done) ∨
      (i = .reset ∧ t.lstate = .idle) := by
  have hscan : s.lstate ≠ .scan := by simp [hs]
  have hcollect : s.lstate ≠ .collect := by simp [hs]
  have hlocating : locating s.lstate ≠ true := by simp [hs, locating]
  rcases exec_next_cases h with rfl | ⟨rfl, hw⟩ | ⟨rfl, hr⟩ | ⟨_, hl, _⟩ | ⟨_, hl, _⟩ | ⟨_, _, _, hl, _⟩ |
    ⟨_, _, _, hl, _⟩ | ⟨_, hl, _⟩ | ⟨_, hl, _⟩ | ⟨_, hl, _⟩ | ⟨w, hw, _, hc⟩ | ⟨w, _, _, hw⟩
  · exact .inl rfl
  · exact .inr (.inl ⟨hw, rfl⟩)
  · exact .inr (.inr (.inr ⟨hr, rfl⟩))
  · exact absurd hl hscan
  · exact absurd hl hscan
  · exact absurd hl hcollect
  · exact absurd hl hcollect
  · exact absurd hl hscan
  · exact absurd hl hcollect
  · exact absurd hl hlocating
  · exact .inr (.inr (.inl ⟨⟨w, hw⟩, (commitDecoded_frame hc).1⟩))
  · exact absurd hw (hi w)

/-- The ways into DONE: a completion that commits no word and takes no byte (40_locator.md R88 to R90), and the commit of
the fourth byte's word or of a DECODE's. -/
theorem exec_enters_done {i : Instr} {s t : State} (h : exec i s = .next t) (hi : ∀ w, encode i ≠ .header w)
    (hs : s.lstate ≠ .done) (ht : t.lstate = .done) :
    (∃ st c, st ≠ .none ∧ t = s.complete st c Results.zero ∧ eventTakes i = false) ∨
      (∃ sEos b, i = .byteFinal sEos b ∧ commit (shiftIn s.raw b) s.take = .next t) ∨
      (∃ w, i = .decode w ∧ commit w s = .next t) := by
  rcases exec_next_cases h with rfl | ⟨rfl, _⟩ | ⟨rfl, _⟩ | ⟨rfl, _⟩ | ⟨rfl, _⟩ | ⟨_, _, _, _, _, rfl⟩ |
    ⟨sEos, b, hb, _, _, hc⟩ | ⟨hu, _, _, rfl⟩ | ⟨hu, _, _, rfl⟩ | ⟨hu, _, _, _, _, rfl⟩ | ⟨w, hw, _, hc⟩ | ⟨w, _, _, hw⟩
  · exact absurd ht hs
  · cases ht
  · cases ht
  · exact absurd ht hs
  · cases ht
  · cases ht
  · exact .inr (.inl ⟨sEos, b, hb, hc⟩)
  · exact .inl ⟨.syncNotFound, .noLead, nofun, hu, rfl⟩
  · exact .inl ⟨.syncNotFound, .truncated, nofun, hu, rfl⟩
  · exact .inl ⟨.streamUnavailable, .none, nofun, hu, rfl⟩
  · exact .inr (.inr ⟨w, hw, hc⟩)
  · exact absurd hw (hi w)

/-- NCOL, STATUS and the results after a commit, whichever its outcome (41_decoder.md R125). -/
theorem commit_outcome {w : Word} {s t : State} (h : commit w s = .next t) :
    t.ncol = 0#2 ∧ t.status ≠ .none ∧ (t.status ≠ .ok → t.res = Results.zero) ∧
      (t.status = .ok ∨ t.status = .invalidHeader) := by
  rcases commitDecoded_next h with ⟨_, _, rfl⟩ | ⟨_, _, rfl⟩
  · exact ⟨rfl, nofun, fun hok => absurd rfl hok, .inl rfl⟩
  · exact ⟨rfl, nofun, fun _ => rfl, .inr rfl⟩

end Sys2Proof.Machine

namespace Sys2Proof.Proofs

open Sys2Proof.Machine

/-- Settles O48: the edge itself changes no register, and of the events it can accept only the three act in DONE. -/
theorem onlyStartDecodeResetActInDone : Obligations.OnlyStartDecodeResetActInDone := by
  intro s t hs h
  obtain ⟨_, ⟨_, rfl⟩ | ⟨e, rest, hin, _, ⟨_, rfl⟩ | ⟨i, hsel, hx⟩⟩⟩ := step_cases h
  · exact .inl (SameRegisters.refl _)
  · exact .inl (advance_sameRegisters s e rest)
  · rcases exec_in_done hx (select_not_header hsel) hs with rfl | ⟨⟨w, rfl⟩, ht⟩ | ⟨⟨w, rfl⟩, ht⟩ | ⟨rfl, ht⟩
    · exact .inl (advance_sameRegisters s e rest)
    · exact .inr ⟨e, rest, hin, .inl ⟨w, hsel, ht⟩⟩
    · exact .inr ⟨e, rest, hin, .inr (.inl ⟨w, hsel, ht⟩)⟩
    · exact .inr ⟨e, rest, hin, .inr (.inr ⟨hsel, ht⟩)⟩

/-- Settles O49, by the ways into DONE: a completion without a word writes neither RAW nor COUNT, and of the two commits
only the fourth byte's takes a byte. -/
theorem completionIsPrecise : Obligations.CompletionIsPrecise := by
  intro s t e rest hin hs h ht
  rcases step_edge_cases hin h with ⟨_, rfl⟩ | ⟨i, hsel, hx⟩
  · exact absurd ht hs
  · rw [hsel]
    rcases exec_enters_done hx (select_not_header hsel) hs ht with
      ⟨st, c, hst, rfl, htake⟩ | ⟨sEos, b, rfl, hc⟩ | ⟨w, rfl, hc⟩
    · exact ⟨rfl, hst, fun _ => rfl, .inr ⟨rfl, rfl⟩, fun h => absurd (htake.symm.trans h) nofun⟩
    · obtain ⟨hn, hst, hres, hword⟩ := commit_outcome hc
      exact ⟨hn, hst, hres, .inl hword, fun _ => ⟨sEos, b, rfl⟩⟩
    · obtain ⟨hn, hst, hres, hword⟩ := commit_outcome hc
      exact ⟨hn, hst, hres, .inl hword, nofun⟩

end Sys2Proof.Proofs
end

section
/-! SUPPORT. The source's duties at an edge and after it (70_reset_and_hazards.md R186), and the edges at which no event of
the stream has its turn: reset, a stall cycle, a held DECODE (R180, R184, R190). -/

namespace Sys2Proof.Machine

/-! ## The duty that an edge breaks (R186) -/

/-- An edge that breaks a duty stops the run by the duty's name. -/
theorem step_of_brokenDuty {s : State} {e : Edge} {rest : List Edge} {r : Refusal} (hc : configWf s.cfg = true)
    (hi : s.inputs = e :: rest) (hb : brokenDuty s e = some r) : step s = .refused r := by
  simp [step, hc, hi, hb]

section
variable {s : State} {e : Edge}

theorem brokenDuty_of_data (ha : BreaksDataDuty s e) : brokenDuty s e = some .unstableStreamData :=
  if_pos ((dataChanged_iff s e).2 ha)

theorem brokenDuty_of_not_data (ha : ¬ BreaksDataDuty s e) :
    brokenDuty s e = if levelBroken s e s.src.eos e.stream.sEos then some .eosDutyBroken
      else if levelBroken s e s.src.err e.stream.sErr then some .errDutyBroken else none :=
  if_neg (mt (dataChanged_iff s e).1 ha)

theorem brokenDuty_of_eos (ha : ¬ BreaksDataDuty s e) (hb : BreaksEosDuty s e) :
    brokenDuty s e = some .eosDutyBroken := by
  rw [brokenDuty_of_not_data ha, if_pos ((eosBroken_iff s e).2 hb)]

theorem brokenDuty_of_err (ha : ¬ BreaksDataDuty s e) (hb : ¬ BreaksEosDuty s e) (hc : BreaksErrDuty s e) :
    brokenDuty s e = some .errDutyBroken := by
  rw [brokenDuty_of_not_data ha, if_neg (mt (eosBroken_iff s e).1 hb), if_pos ((errBroken_iff s e).2 hc)]

theorem brokenDuty_of_none (ha : ¬ BreaksDataDuty s e) (hb : ¬ BreaksEosDuty s e) (hc : ¬ BreaksErrDuty s e) :
    brokenDuty s e = none := by
  rw [brokenDuty_of_not_data ha, if_neg (mt (eosBroken_iff s e).1 hb), if_neg (mt (errBroken_iff s e).1 hc)]

theorem brokenDuty_eq_none_iff :
    brokenDuty s e = none ↔ ¬ BreaksDataDuty s e ∧ ¬ BreaksEosDuty s e ∧ ¬ BreaksErrDuty s e := by
  refine ⟨fun h => ?_, fun ⟨ha, hb, hc⟩ => brokenDuty_of_none ha hb hc⟩
  have ha : ¬ BreaksDataDuty s e := fun ha => nomatch (brokenDuty_of_data ha).symm.trans h
  have hb : ¬ BreaksEosDuty s e := fun hb => nomatch (brokenDuty_of_eos ha hb).symm.trans h
  exact ⟨ha, hb, fun hc => nomatch (brokenDuty_of_err ha hb hc).symm.trans h⟩

end

/-! ## The duties after an edge (R186) -/

theorem eventStarts_iff (i : Instr) : eventStarts i = true ↔ ∃ w, i = .start w := by
  cases i <;> simp [eventStarts]

theorem startsAt_iff (i : Option Instr) : startsAt i = true ↔ ∃ w, i = some (.start w) := by
  cases i <;> simp [startsAt, eventStarts_iff]

theorem dutiesAfter_held_iff (s : State) (e : Edge) (i : Option Instr) (b : Byte) :
    (dutiesAfter s e i).held = some b ↔ e.stream.sValid = true ∧ e.stream.sData = b ∧ takesByte i = false := by
  simp only [dutiesAfter, Option.ite_none_right_eq_some, Bool.and_eq_true, Bool.not_eq_true', Option.some.injEq]
  tauto

/-- What is owed for a level after an edge, by whether the edge accepts a START and whether the locate completes there. -/
theorem levelDutyAfter_iff (d : LevelDuty) (level : Bool) (i : Option Instr) :
    ((levelDutyAfter d level i).seen = true ↔ ¬ startsAt i = true ∧ (d.seen = true ∨ level = true)) ∧
    ((levelDutyAfter d level i).keep = true ↔ ¬ startsAt i = true ∧ ¬ completesLocateAt i = true ∧
      (d.keep = true ∨ (level = true ∧ d.high = false))) ∧
    ((levelDutyAfter d level i).high = true ↔ ¬ startsAt i = true ∧ level = true) := by
  simp [levelDutyAfter, and_assoc]

/-! ## Reset, stall cycles and a held DECODE -/

/-- The reset step (R180): the registers are reset past the edge. -/
theorem step_of_rst {s : State} {e : Edge} {rest : List Edge} (hc : configWf s.cfg = true) (hi : s.inputs = e :: rest)
    (hb : brokenDuty s e = none) (hr : e.rst = true) : step s = .next (s.advance e rest).resetRegisters := by
  rw [step_edge hc hi hb, select_of_rst s hr]
  rfl

/-- A stall cycle goes past its edge and does nothing else (R190). -/
theorem step_of_stall {s : State} {e : Edge} {rest : List Edge} (hc : configWf s.cfg = true) (hi : s.inputs = e :: rest)
    (hb : brokenDuty s e = none) (hr : e.rst = false) (hs : e.stall = true) : step s = .next (s.advance e rest) := by
  rw [step_edge hc hi hb, select_of_stall s hr hs]

/-- DECODE during a locate changes nothing (R184). -/
theorem exec_decode_in_locate {s : State} (w : Word) (hl : locating s.lstate = true) : exec (.decode w) s = .next s := by
  simp [exec, execDecode, whenAccepted, hl]

/-- A command that is held leaves the cycle to the stream, as if it were not offered (R184, 10_state.md R36). -/
theorem select_of_held {s : State} {e : Edge} (hr : e.rst = false) (hs : e.stall = false) (hc : cReady s e = false) :
    select s e = select s { e with cValid := false } := by
  have held : StreamTurn s e := ⟨hr, hs, by simp [hc]⟩
  have absent : StreamTurn s { e with cValid := false } := streamTurn_of_no_command hr hs rfl
  rw [select_of_streamTurn held, select_of_streamTurn absent]

/-- A program is refused at a line that is not accepted (30_encoding.md R77). -/
theorem runProgram_of_not_accepted {s : State} {l : Line} (ls : List Line) (h : l.accepted s = false) :
    runProgram s (l :: ls) = .refused .illFormedProgram := by
  simp [runProgram, runLine, h]

end Sys2Proof.Machine

namespace Sys2Proof.Proofs

open Sys2Proof.Machine

/-- Settles O8: the tests of the three duties are made in the rule's order, and the first that fails names the refusal. -/
theorem brokenDutiesAreRefused : Obligations.BrokenDutiesAreRefused := by
  intro s e rest hc hi
  exact ⟨fun ha => step_of_brokenDuty hc hi (brokenDuty_of_data ha),
    fun ha hb => step_of_brokenDuty hc hi (brokenDuty_of_eos ha hb),
    fun ha hb hc' => step_of_brokenDuty hc hi (brokenDuty_of_err ha hb hc'),
    brokenDuty_eq_none_iff⟩

/-- Settles O9: no event touches the duties, so they are those of the edge; the events that complete the locate are the
steps from SCAN or COLLECT into DONE. -/
theorem dutiesFollowTheEdges : Obligations.DutiesFollowTheEdges := by
  intro s t e rest hi h
  obtain ⟨hsrc, hinputs, _⟩ := step_environment hi h
  rw [hsrc]
  refine ⟨hinputs, dutiesAfter_held_iff s e _, fun started completed hstarted hcompleted => ?_⟩
  rw [hstarted, hcompleted, ← startsAt_iff, ← step_completes_iff hi h]
  obtain ⟨heosSeen, heosKeep, heosHigh⟩ := levelDutyAfter_iff s.src.eos e.stream.sEos (select s e)
  obtain ⟨herrSeen, herrKeep, herrHigh⟩ := levelDutyAfter_iff s.src.err e.stream.sErr (select s e)
  exact ⟨heosSeen, heosKeep, heosHigh, herrSeen, herrKeep, herrHigh⟩

/-- Settles O10, by whether the script holds an edge. -/
theorem stepAnswersUnlessADutyIsBroken : Obligations.StepAnswersUnlessADutyIsBroken := by
  intro s hc hb
  cases hi : s.inputs with
  | nil => exact ⟨s, step_nil hc hi⟩
  | cons e rest => exact step_answers hc hi (hb e rest hi)

/-- Settles O7: past the edge no register has changed. -/
theorem stallCycleIsANoOp : Obligations.StallCycleIsANoOp := by
  intro s e rest hc hi hb hr hs
  rw [outputs_of_stalled s hr hs]
  exact ⟨⟨_, step_of_stall hc hi hb hr hs, advance_sameRegisters s e rest, rfl⟩, rfl, rfl⟩

/-- Settles O12: reset takes no byte, so one that is offered is held; a cycle with `rst` 1 is no stall cycle, so its
outputs are the registers. -/
theorem resetStep : Obligations.ResetStep := by
  intro s e rest hc hi hb hr
  have hsel := select_of_rst s hr
  have htake : takesByte (select s e) = false := by rw [hsel]; rfl
  have hheld : (s.advance e rest).src.held = if e.stream.sValid then some e.stream.sData else none := by
    simp [dutiesAfter, htake]
  refine ⟨hsel, htake, _, step_of_rst hc hi hb hr, rfl, rfl, rfl, rfl, rfl, rfl, rfl, rfl, rfl, hheld, fun e' he' => ?_⟩
  rw [outputs_of_running _ he']
  rfl

/-- Settles O13. -/
theorem resetCompletes : Obligations.ResetCompletes := fun _ => rfl

/-- Settles O18: during a locate `c_ready` is 0 for a DECODE, so neither an edge nor a program line has it accepted. -/
theorem decodeIsHeldDuringALocate : Obligations.DecodeIsHeldDuringALocate := by
  refine ⟨fun s w hl => exec_decode_in_locate w ((locating_iff _).2 hl), fun s e hl ⟨hr, hs, _, hop⟩ => ?_,
    fun s w ls hl => runProgram_of_not_accepted ls ?_⟩
  · have hheld : cReady s e = false := by rw [cReady_decode_iff hop, (locating_iff _).2 hl]; rfl
    exact ⟨hheld, select_of_held hr hs hheld⟩
  · rw [Line.accepted, (locating_iff _).2 hl]; rfl

end Sys2Proof.Proofs
end
